-- ==== Sys2Proof/Word.lean ====
section
/-! DEFINITION. The widths of spec/00_scope.md rule R10 and nothing else: a byte, a halfword, a word. -/

namespace Sys2Proof

/-- A byte, 8 bits (R10). -/
abbrev Byte := BitVec 8

/-- A halfword, 16 bits (R10): the width of the CRC and of a register number, count, value or rate code of a frame. -/
abbrev Half := BitVec 16

/-- A word, 32 bits (R10): the width of every register as the bus sees it (R8 `REG_WIDTH`). -/
abbrev Word := BitVec 32

end Sys2Proof
end

