-- ==== Sys2Proof/Syntax.lean ====
section
/-! DEFINITION. The commands: one constructor per row of spec/opcode_table.json (spec/30_encoding.md rule R73).
Operands are the fields of the command word as rule R72 names them, before assembly. -/

namespace Sys2Proof

inductive Instr where
  /-- `CRC_INIT` (spec/40_crc.md R104). -/
  | crcInit
  /-- `CRC_BYTE d` with `DATA = d` (R105). -/
  | crcByte (data : Byte)
  /-- `CRC_CHECK lo, hi` (R106). -/
  | crcCheck (lo hi : Byte)
  /-- `CRC_RX` (R107). -/
  | crcRx
  /-- `ENC_READ` (spec/41_encode.md R122). -/
  | encRead
  /-- `ENC_ZERO` (R123). -/
  | encZero
  /-- `ENC_BAUD rate`, the 24-bit field `w[31:8]` (R125). -/
  | encBaud (rate : BitVec 24)
  /-- `DEC_READ` (spec/42_decode.md R143). -/
  | decRead
  /-- `CHK_ECHO` (R147). -/
  | chkEcho
  /-- `CHK_HDR` (R150). -/
  | chkHdr
  /-- `BAD_COMMAND` (spec/30_encoding.md R75): the whole illegal word. -/
  | badCommand (w : Word)
  deriving DecidableEq, Repr

end Sys2Proof
end

