-- ==== Sys2Proof/WellFormed.lean ====
section
/-! DEFINITION. Which terms of `Instr` are commands. Every operand field carries its width in its type, so the one
check is on `badCommand`: its word must be illegal (spec/30_encoding.md rule R74). The check is written from rule
R74's own words, an unassigned OP or a 1 in a bit the layout of its OP reserves (R71), not from the decoder. -/

namespace Sys2Proof

/-- The reserved bits of layouts N, B and H of rule R71, as the field each leaves out. -/
def reservedBitsClear (w : Word) : Bool :=
  let op := w.toNat % 256
  if op = 0x02 then w.toNat / 2 ^ 16 == 0
  else if op = 0x03 then w.toNat / 2 ^ 24 == 0
  else if op = 0x12 then true
  else w.toNat / 2 ^ 8 == 0

/-- The OP values of rule R73. -/
def opAssigned (w : Word) : Bool :=
  [0x01, 0x02, 0x03, 0x04, 0x10, 0x11, 0x12, 0x20, 0x21, 0x22].contains (w.toNat % 256)

/-- Rule R74: (a) an OP that is none of the ten, or (b) one of the ten with a 1 in a reserved bit. -/
def illegalWord (w : Word) : Bool :=
  !opAssigned w || !reservedBitsClear w

/-- A well-formed command: `badCommand` carries an illegal word; every other command is well-formed. -/
def Instr.wellFormed : Instr → Bool
  | .crcInit => true
  | .crcByte _ => true
  | .crcCheck _ _ => true
  | .crcRx => true
  | .encRead => true
  | .encZero => true
  | .encBaud _ => true
  | .decRead => true
  | .chkEcho => true
  | .chkHdr => true
  | .badCommand w => illegalWord w

end Sys2Proof
end

