-- ==== Sys2Proof/Decode.lean ====
section
/-! DEFINITION. Command words: the opcode map of spec/30_encoding.md rule R73 as a table of rows, the decoder
(rule R70) and the encoder (rules R71, R72). The decoder is total: a word that matches no row IS the command
`BAD_COMMAND` (rules R74, R75), under that name, so no 32-bit word is left without a meaning. -/

namespace Sys2Proof

/-! ## Bit fields of a command word (R70, R71) -/

/-- `OP = w[7:0]` (R70). -/
def wordOp (w : Word) : Byte := w.extractLsb' 0 8

/-- Bits [15:8]: `DATA` of layout B, `LO` of layout H (R71, R72). -/
def wordLo (w : Word) : Byte := w.extractLsb' 8 8

/-- Bits [23:16]: `HI` of layout H (R71, R72). -/
def wordHi (w : Word) : Byte := w.extractLsb' 16 8

/-- Bits [31:8]: `ARG` (R70), `RATE` of layout R (R71, R72). -/
def wordArg (w : Word) : BitVec 24 := w.extractLsb' 8 24

/-! ## OP values (R73) -/

def opCrcInit : Byte := 0x01
def opCrcByte : Byte := 0x02
def opCrcCheck : Byte := 0x03
def opCrcRx : Byte := 0x04
def opEncRead : Byte := 0x10
def opEncZero : Byte := 0x11
def opEncBaud : Byte := 0x12
def opDecRead : Byte := 0x20
def opChkEcho : Byte := 0x21
def opChkHdr : Byte := 0x22

/-- The OP byte of a command: what `LAST_OP` becomes (R29, R70). -/
def Instr.op : Instr → Byte
  | .crcInit => opCrcInit
  | .crcByte _ => opCrcByte
  | .crcCheck _ _ => opCrcCheck
  | .crcRx => opCrcRx
  | .encRead => opEncRead
  | .encZero => opEncZero
  | .encBaud _ => opEncBaud
  | .decRead => opDecRead
  | .chkEcho => opChkEcho
  | .chkHdr => opChkHdr
  | .badCommand w => wordOp w

/-! ## The opcode map (R73) -/

/-- One row of the opcode map: its `match` and `mask` columns, and the command it stands for, with its operands taken
from the word. -/
structure OpRow where
  pattern : Word
  mask : Word
  command : Word → Instr

/-- `(w AND mask) = match` (R70). -/
def OpRow.hits (r : OpRow) (w : Word) : Bool := w &&& r.mask == r.pattern

/-- The ten rows of rule R73, in its order. -/
def opTable : List OpRow :=
  [ ⟨0x00000001, 0xFFFFFFFF, fun _ => .crcInit⟩,
    ⟨0x00000002, 0xFFFF00FF, fun w => .crcByte (wordLo w)⟩,
    ⟨0x00000003, 0xFF0000FF, fun w => .crcCheck (wordLo w) (wordHi w)⟩,
    ⟨0x00000004, 0xFFFFFFFF, fun _ => .crcRx⟩,
    ⟨0x00000010, 0xFFFFFFFF, fun _ => .encRead⟩,
    ⟨0x00000011, 0xFFFFFFFF, fun _ => .encZero⟩,
    ⟨0x00000012, 0x000000FF, fun w => .encBaud (wordArg w)⟩,
    ⟨0x00000020, 0xFFFFFFFF, fun _ => .decRead⟩,
    ⟨0x00000021, 0xFFFFFFFF, fun _ => .chkEcho⟩,
    ⟨0x00000022, 0xFFFFFFFF, fun _ => .chkHdr⟩ ]

/-- Rule R70: the command of the row that matches, else `BAD_COMMAND` (R75). -/
def decode (w : Word) : Instr :=
  match opTable.find? (fun r => r.hits w) with
  | some r => r.command w
  | none => .badCommand w

/-! ## The encoder (R71, layouts N, B, H, R) -/

/-- The command word of a command, field by field from bit 31 down, as rule R71 lays them out. -/
def encode : Instr → Word
  | .crcInit => 0#24 ++ opCrcInit
  | .crcByte data => 0#16 ++ data ++ opCrcByte
  | .crcCheck lo hi => 0#8 ++ hi ++ lo ++ opCrcCheck
  | .crcRx => 0#24 ++ opCrcRx
  | .encRead => 0#24 ++ opEncRead
  | .encZero => 0#24 ++ opEncZero
  | .encBaud rate => rate ++ opEncBaud
  | .decRead => 0#24 ++ opDecRead
  | .chkEcho => 0#24 ++ opChkEcho
  | .chkHdr => 0#24 ++ opChkHdr
  | .badCommand w => w

/-- The word of the opcode table's numbering: bits at and above `nbits` are 0. -/
def tableWord (nbits w : Nat) : Word := BitVec.ofNat 32 (w % 2 ^ nbits)

/-- The command the decoder reads from a table word of `nbits` bits. A command is one 32-bit word (R71, R76): there is
no longer one. -/
def decodeTableWord (nbits w : Nat) : Option Instr :=
  if nbits ≤ 32 then some (decode (tableWord nbits w)) else none

end Sys2Proof
end

