-- ==== Sys2Proof/Config.lean ====
section
/-! DEFINITION. What the spec leaves open (spec/00_scope.md rule R9): the free values of `BUF_RESET`, and the
parameter `SCALE_DIVISOR` with its default. The third open parameter, `CODEC_BASE`, is an argument of
`Sys2Proof.Machine.windowOffset`. -/

namespace Sys2Proof.Config

/-- `BUF_RESET`, the 8 bytes of `TX` after the reset number `n` (R9, R39, R190: "each byte any value").
No body: nothing can be proved of a value of it. Log entry 4. -/
opaque txBufReset : Nat → Vector Byte 8

/-- `BUF_RESET`, the 16 bytes of `RX` after the reset number `n` (R9, R39, R190: "each byte any value").
No body: nothing can be proved of a value of it. Log entry 4. -/
opaque rxBufReset : Nat → Vector Byte 16

/-- `SCALE_DIVISOR` is a positive integer (R9). It enters no rule of the block. -/
abbrev ScaleDivisor := { d : Nat // 0 < d }

/-- The default 1000 of `SCALE_DIVISOR` (R9, R144). -/
def defaultScaleDivisor : ScaleDivisor := ⟨1000, by decide⟩

end Sys2Proof.Config
end

