-- ==== Sys2Proof/Machine/Protocol.lean ====
section
/-! DEFINITION. The protocol constants of spec/00_scope.md rule R7 and the rate table of spec/41_encode.md rule R124,
each "taken exactly as written" (log entry 12). -/

namespace Sys2Proof.Machine

def slaveAddr : Byte := 0x01
def fcRead : Byte := 0x04
def fcWrite : Byte := 0x06
def regValue : Half := 0x0037
def readCount : Half := 0x0002
def regZero : Half := 0x0036
def zeroValue : Half := 0x0001
def regBaud : Half := 0x0031
def readRespLen : Nat := 9
def readByteCount : Byte := 0x04
def echoMinLen : Nat := 8
def crcPoly : Half := 0xA001
def crcSeed : Half := 0xFFFF

/-- The bytes `CHK_HDR` reads, its minimum length (spec/42_decode.md R150). -/
def hdrMinLen : Nat := 2

/-- `RATE_CODE` (R7, R124): the candidate rates, each with its rate code. The table is closed. -/
def rateTable : List (Word × Half) :=
  [ (9600, 0x0096), (19200, 0x0192), (38400, 0x0384), (57600, 0x0576), (115200, 0x1152) ]

/-- `rate_code` (R124): defined on exactly the candidate set. -/
def rateCode (rate : Word) : Option Half :=
  (rateTable.find? (fun e => e.1 == rate)).map (fun e => e.2)

end Sys2Proof.Machine
end

