-- ==== Sys2Proof/Machine/State.lean ====
section
/-! DEFINITION. The state of the block (spec/10_state.md rule R23, complete), the events that reach it from outside,
the reasons a step can stop, and the state right after reset (rules R39, R190). -/

namespace Sys2Proof.Machine

/-- The result codes of `STATUS.RESULT` (R27). Values 7 to 15 are never produced (R26), so the type has the seven
codes only (spec/93_implementation_defined.md I11, log entry 10). -/
inductive ResultCode where
  /-- 0 `NONE`: no command has executed since reset. -/
  | none
  /-- 1 `OK`. -/
  | ok
  /-- 2 `TRUNCATED`. -/
  | truncated
  /-- 3 `MALFORMED`. -/
  | malformed
  /-- 4 `CHECKSUM_MISMATCH`. -/
  | checksumMismatch
  /-- 5 `UNSUPPORTED_BAUD`. -/
  | unsupportedBaud
  /-- 6 `BAD_COMMAND`. -/
  | badCommand
  deriving DecidableEq, Repr

/-- What reaches the block from outside, one at a time (R20, R58, R190). Offsets and widths are in bytes; an offset is
counted from `CODEC_BASE`. -/
inductive HostEvent where
  /-- A host read of `width` bytes at `offset`. -/
  | read (offset width : Nat)
  /-- A host write of `width` bytes at `offset`. `value` is the word presented; only a write of 4 bytes at a multiple
  of 4 has an effect (R51, R52), so the value of any other write is never looked at. -/
  | write (offset width : Nat) (value : Word)
  /-- The platform drives the reset input: asserted or not (R190). -/
  | resetLine (asserted : Bool)
  deriving DecidableEq, Repr

/-- The data of the last read (the model's own field, log entry 3). -/
inductive BusReply where
  /-- No read has been answered yet. -/
  | none
  /-- The 32-bit word of a supported read (R51). -/
  | word (w : Word)
  /-- An unsupported read of `width` bytes: 0 in every byte lane it reads (R52). -/
  | zeroLanes (width : Nat)
  deriving DecidableEq, Repr

/-- The state. The first nine fields are the architectural state of rule R23. -/
structure State where
  /-- `CRC` (R24). -/
  crc : Half
  /-- `RAW` (R25). -/
  raw : Word
  /-- `STATUS.RESULT` (R26, R27). -/
  result : ResultCode
  /-- `STATUS.RAW_VALID` (R28). -/
  rawValid : Bool
  /-- `STATUS.LAST_OP` (R29). -/
  lastOp : Byte
  /-- `TXLEN` (R30). -/
  txLen : BitVec 4
  /-- `TX[0..7]` (R31). -/
  tx : Vector Byte 8
  /-- `RXLEN`, 0 to 16 (R32, log entry 10). -/
  rxLen : Fin 17
  /-- `RX[0..15]` (R33). -/
  rx : Vector Byte 16
  /-- The reset input is asserted (R190). -/
  inReset : Bool
  /-- The model's own: the events still to arrive, oldest first (log entry 1). -/
  pending : List HostEvent
  /-- The model's own: the data of the last read (log entry 3). -/
  reply : BusReply
  /-- The model's own: how many `BUF_RESET` draws have been used (log entry 4). -/
  draws : Nat
  deriving DecidableEq, Repr

/-- Why the machine stops. The block itself never stops (spec/60_exceptions.md R170). -/
inductive Fault where
  /-- Raised by the bus operations for an access whose offset lies outside the 64-byte window: that address is no
  address of the block (spec/20_memory.md R50). Safe: the machine stops where the block is not even selected. Log
  entry 7. -/
  | outsideWindow
  deriving DecidableEq, Repr

/-- Why a step has no meaning. -/
inductive Refusal where
  /-- Raised by `exec` alone, for a command that has no meaning yet. Safe. No command is left so. -/
  | notModelled (mnemonic : String)
  /-- Raised by the bus operations for an access while reset is asserted: "not specified (a model refuses it)" (R190).
  Safe. Log entry 5. -/
  | accessDuringReset
  deriving DecidableEq, Repr

/-- The state at the end of the reset that uses draw number `n` of `BUF_RESET` (R39, R190), with nothing pending and no
read answered. -/
def State.afterReset (n : Nat) : State where
  crc := crcSeed
  raw := 0
  result := .none
  rawValid := false
  lastOp := 0x00
  txLen := 0
  tx := Config.txBufReset n
  rxLen := 0
  rx := Config.rxBufReset n
  inReset := false
  pending := []
  reply := .none
  draws := n + 1

/-- The machine right after the power-up reset (R183, R190). -/
def State.reset : State := State.afterReset 0

end Sys2Proof.Machine
end

