-- ==== Sys2Proof/Machine/Flags.lean ====
section
/-! DEFINITION. `STATUS` (spec/10_state.md rules R26, R27, R38) and how a command ends (spec/00_scope.md rule R13).
`raiseResult` is this hardware's whole error entry (spec/60_exceptions.md rules R170, R175): it saves nothing, changes no
mode and has no handler, so there is no return (R176). -/

namespace Sys2Proof.Machine

/-- The number of a result code (R27). -/
def ResultCode.code : ResultCode → BitVec 4
  | .none => 0
  | .ok => 1
  | .truncated => 2
  | .malformed => 3
  | .checksumMismatch => 4
  | .unsupportedBaud => 5
  | .badCommand => 6

/-- `STATUS` as the bus reads it (R26): `LAST_OP` at [15:8], `RAW_VALID` at [4], `RESULT` at [3:0], the rest 0. -/
def statusWord (s : State) : Word :=
  0#16 ++ s.lastOp ++ 0#3 ++ BitVec.ofBool s.rawValid ++ s.result.code

/-- `STATUS.RESULT <- code; STATUS.LAST_OP <- op`: the flags every command writes (R38, R70). -/
def State.report (code : ResultCode) (op : Byte) (s : State) : State :=
  { s with result := code, lastOp := op }

/-- `raise Result(code)` (R13, R175). -/
def raiseResult (code : ResultCode) (op : Byte) (s : State) : Host.Outcome State Fault Refusal :=
  .next (s.report code op)

/-- `finish OK` (R13). -/
def finishOk (op : Byte) (s : State) : Host.Outcome State Fault Refusal :=
  .next (s.report .ok op)

end Sys2Proof.Machine
end

