-- ==== Sys2Proof/Machine/Operands.lean ====
section
/-! DEFINITION. Operand assembly (spec/30_encoding.md rule R72) and the byte orders of spec/20_memory.md rules R53 and
R54. -/

namespace Sys2Proof.Machine

/-! ## Operands of a command word (R72): unsigned, zero-extended -/

/-- `EXP = HI ++ LO` of `CRC_CHECK` (R72, R106). -/
def expectedCrc (lo hi : Byte) : Half := hi ++ lo

/-- `RATE = zext_32(w[31:8])` of `ENC_BAUD` (R72, R125). -/
def rateOperand (rate : BitVec 24) : Word := rate.setWidth 32

/-! ## Bytes of halfwords and words -/

/-- Bits [7:0] of a halfword. -/
def halfLo (h : Half) : Byte := h.extractLsb' 0 8

/-- Bits [15:8] of a halfword. -/
def halfHi (h : Half) : Byte := h.extractLsb' 8 8

/-- Byte lane `j` of a word: bits `[8j+7 : 8j]` (R53). -/
def lane (v : Word) (j : Nat) : Byte := v.extractLsb' (8 * j) 8

/-- Four buffer bytes as a bus word, byte 0 in bits [7:0] (R53). -/
def packWord (b0 b1 b2 b3 : Byte) : Word := b3 ++ b2 ++ b1 ++ b0

/-- The payload `B3 B2 B1 B0`, big-endian (R54(c), R142). -/
def payloadWord (b3 b2 b1 b0 : Byte) : Word := b3 ++ b2 ++ b1 ++ b0

/-- A request's six header and payload bytes: every 16-bit field high byte first (R54(b), R77). -/
def request (fc : Byte) (reg value : Half) : Vector Byte 6 :=
  #v[slaveAddr, fc, halfHi reg, halfLo reg, halfHi value, halfLo value]

end Sys2Proof.Machine
end

