-- ==== Sys2Proof/Machine/Ops.lean ====
section
/-! DEFINITION. The operations the commands and the bus share: one update per register, the CRC function (spec/40_crc.md
rules R101, R102), frames, the received frame, the buffers as bus words, and the end of reset. Every read and write of a
register goes through this file or Flags.lean. -/

namespace Sys2Proof.Machine

/-! ## Register updates, one per register -/

def State.setCrc (v : Half) (s : State) : State := { s with crc := v }
def State.setRaw (v : Word) (s : State) : State := { s with raw := v }
def State.setRawValid (b : Bool) (s : State) : State := { s with rawValid := b }
def State.setTxLen (n : BitVec 4) (s : State) : State := { s with txLen := n }
def State.setTx (f : Vector Byte 8) (s : State) : State := { s with tx := f }
def State.setRxLen (n : Fin 17) (s : State) : State := { s with rxLen := n }
def State.setRx (b : Vector Byte 16) (s : State) : State := { s with rx := b }
def State.setInReset (b : Bool) (s : State) : State := { s with inReset := b }
def State.setPending (es : List HostEvent) (s : State) : State := { s with pending := es }
def State.setReply (r : BusReply) (s : State) : State := { s with reply := r }

/-! ## The CRC function -/

/-- One of the eight iterations of R101: bit 0 is tested before the shift (spec/90_conflicts.md C3). -/
def crcShift (c : Half) : Half :=
  if c.getLsbD 0 then (c >>> 1) ^^^ crcPoly else c >>> 1

/-- `n` iterations. -/
def crcShifts : Nat → Half → Half
  | 0, c => c
  | n + 1, c => crcShifts n (crcShift c)

/-- `crc_step(c, b)` (R101): the byte enters the low 8 bits, then eight iterations. -/
def crcStep (c : Half) (b : Byte) : Half :=
  crcShifts 8 (c ^^^ b.setWidth 16)

/-- `crc16(s) = foldl crc_step CRC_SEED s` (R102). -/
def crc16 (bytes : List Byte) : Half :=
  bytes.foldl crcStep crcSeed

/-- `frame(P) = P ++ [crc16(P)[7:0], crc16(P)[15:8]]` (R120). -/
def frame (p : Vector Byte 6) : Vector Byte 8 :=
  (p.push (halfLo (crc16 p.toList))).push (halfHi (crc16 p.toList))

/-! ## The received frame (R33, R140) -/

/-- `RX[i]`. Every rule reads it only for `i` below `RXLEN`, hence below 16. -/
def State.rxByte (s : State) (i : Nat) : Byte := s.rx.toList.getD i 0

/-- `RX[0..n)`. -/
def State.rxPrefix (s : State) (n : Nat) : List Byte := s.rx.toList.take n

/-- `RX[0..RXLEN)`, the received frame `F` (R140). -/
def State.received (s : State) : List Byte := s.rxPrefix s.rxLen.val

/-! ## The buffers as bus words (R31, R33, R53) -/

/-- `TXBUF<k>`: `TX[4k..4k+4)`. -/
def State.txWord (s : State) (k : Fin 2) : Word :=
  packWord (s.tx[4 * k.val]) (s.tx[4 * k.val + 1]) (s.tx[4 * k.val + 2]) (s.tx[4 * k.val + 3])

/-- `RXBUF<k>`: `RX[4k..4k+4)`. -/
def State.rxWord (s : State) (k : Fin 4) : Word :=
  packWord (s.rx[4 * k.val]) (s.rx[4 * k.val + 1]) (s.rx[4 * k.val + 2]) (s.rx[4 * k.val + 3])

/-- A write of `RXBUF<k>` writes its four bytes. -/
def State.setRxWord (k : Fin 4) (v : Word) (s : State) : State :=
  s.setRx ((((s.rx.set (4 * k.val) (lane v 0)).set (4 * k.val + 1) (lane v 1)).set
    (4 * k.val + 2) (lane v 2)).set (4 * k.val + 3) (lane v 3))

/-- A write of `RXLEN`: the full 32-bit value decides; above 16 it is ignored (R32). -/
def State.writeRxLen (v : Word) (s : State) : State :=
  if h : v.toNat < 17 then s.setRxLen ⟨v.toNat, h⟩ else s

/-! ## Reset -/

/-- The end of reset (R190): every register takes its reset value and the buffers a fresh draw. The events still to
arrive and the last reply are not the block's. -/
def State.endReset (s : State) : State :=
  ((State.afterReset s.draws).setPending s.pending).setReply s.reply

/-- The reset input changes (R190). Reset ends when an asserted input is released; releasing an input that is not
asserted changes nothing (log entry 6). -/
def State.driveReset (asserted : Bool) (s : State) : State :=
  if asserted then s.setInReset true
  else if s.inReset then s.endReset else s

end Sys2Proof.Machine
end

