-- ==== Sys2Proof/Machine/CrcUnit.lean ====
section
/-! DEFINITION. The CRC unit (spec/40_crc.md rules R104 to R107). -/

namespace Sys2Proof.Machine

/-- `CRC_INIT` (R104): `CRC <- 0xFFFF; finish OK`. -/
def execCrcInit (s : State) : Host.Outcome State Fault Refusal :=
  finishOk opCrcInit (s.setCrc crcSeed)

/-- `CRC_BYTE` (R105): `CRC <- crc_step(CRC, DATA); finish OK`. -/
def execCrcByte (data : Byte) (s : State) : Host.Outcome State Fault Refusal :=
  finishOk opCrcByte (s.setCrc (crcStep s.crc data))

/-- `CRC_CHECK` (R106): `if CRC = EXP then finish OK else raise Result(CHECKSUM_MISMATCH)`. -/
def execCrcCheck (lo hi : Byte) (s : State) : Host.Outcome State Fault Refusal :=
  if s.crc = expectedCrc lo hi then finishOk opCrcCheck s
  else raiseResult .checksumMismatch opCrcCheck s

/-- `CRC_RX` (R107): `CRC <- crc16(RX[0..RXLEN)); finish OK`. -/
def execCrcRx (s : State) : Host.Outcome State Fault Refusal :=
  finishOk opCrcRx (s.setCrc (crc16 s.received))

end Sys2Proof.Machine
end

