-- ==== Sys2Proof/Machine/FrameDecoder.lean ====
section
/-! DEFINITION. The frame decoder and the validators (spec/42_decode.md rules R140 to R151), and the measurement, which
the block does not compute (rule R144). -/

namespace Sys2Proof.Machine

/-- Check (b) of R141: address, function code and byte count of a read response. -/
def readHeaderOk (s : State) : Bool :=
  s.rxByte 0 == slaveAddr && s.rxByte 1 == fcRead && s.rxByte 2 == readByteCount

/-- Check (c) of R141: `crc16(F[0..n-2)) = F[n-1] ++ F[n-2]` with `n = RXLEN`. -/
def trailingCrcOk (s : State) : Bool :=
  crc16 (s.rxPrefix (s.rxLen.val - 2)) == expectedCrc (s.rxByte (s.rxLen.val - 2)) (s.rxByte (s.rxLen.val - 1))

/-- The payload `F[3..7)` (R142). -/
def payload (s : State) : Word :=
  payloadWord (s.rxByte 3) (s.rxByte 4) (s.rxByte 5) (s.rxByte 6)

/-- The result of validating a read response: the first failing check decides (R141). -/
def readResponseResult (s : State) : ResultCode :=
  if s.rxLen.val < readRespLen then .truncated
  else if readHeaderOk s = false then .malformed
  else if trailingCrcOk s = false then .checksumMismatch
  else .ok

/-- `DEC_READ` (R143): on an error `RAW` keeps its value and `RAW_VALID` becomes 0. -/
def execDecRead (s : State) : Host.Outcome State Fault Refusal :=
  match readResponseResult s with
  | .ok => finishOk opDecRead ((s.setRaw (payload s)).setRawValid true)
  | code => raiseResult code opDecRead (s.setRawValid false)

/-- `CHK_ECHO` (R147): the length alone. -/
def execChkEcho (s : State) : Host.Outcome State Fault Refusal :=
  if echoMinLen ≤ s.rxLen.val then finishOk opChkEcho s
  else raiseResult .truncated opChkEcho s

/-- `CHK_HDR` (R150): length, then address and function code. -/
def execChkHdr (s : State) : Host.Outcome State Fault Refusal :=
  if s.rxLen.val < hdrMinLen then raiseResult .truncated opChkHdr s
  else if s.rxByte 0 ≠ slaveAddr ∨ s.rxByte 1 ≠ fcRead then raiseResult .malformed opChkHdr s
  else finishOk opChkHdr s

/-- `RAW` as a signed integer: two's complement (spec/00_scope.md R14, R142). -/
def rawValue (s : State) : Int := s.raw.toInt

/-- The measurement in millimetres, the exact rational `RAW / SCALE_DIVISOR` (R144). Not part of any step. -/
def measurement (d : Config.ScaleDivisor) (s : State) : Rat := (rawValue s : Rat) / (d.val : Rat)

end Sys2Proof.Machine
end

