-- ==== Sys2Proof/Machine/FrameEncoder.lean ====
section
/-! DEFINITION. The frame encoder (spec/41_encode.md rules R120 to R126). It reads no register. -/

namespace Sys2Proof.Machine

/-- What every successful encoder command does (R121): `TX[0..8) <- frame(P); TXLEN <- 8; finish OK`. -/
def sendFrame (op : Byte) (p : Vector Byte 6) (s : State) : Host.Outcome State Fault Refusal :=
  finishOk op ((s.setTx (frame p)).setTxLen 8)

/-- `ENC_READ` (R122). -/
def execEncRead (s : State) : Host.Outcome State Fault Refusal :=
  sendFrame opEncRead (request fcRead regValue readCount) s

/-- `ENC_ZERO` (R123). -/
def execEncZero (s : State) : Host.Outcome State Fault Refusal :=
  sendFrame opEncZero (request fcWrite regZero zeroValue) s

/-- `ENC_BAUD` (R125): a rate that is no candidate sets `TXLEN` to 0, leaves `TX` and raises `UNSUPPORTED_BAUD`. -/
def execEncBaud (rate : BitVec 24) (s : State) : Host.Outcome State Fault Refusal :=
  match rateCode (rateOperand rate) with
  | none => raiseResult .unsupportedBaud opEncBaud (s.setTxLen 0)
  | some code => sendFrame opEncBaud (request fcWrite regBaud code) s

end Sys2Proof.Machine
end

