-- ==== Sys2Proof/Machine/Illegal.lean ====
section
/-! DEFINITION. The effect of an illegal command word (spec/30_encoding.md rule R75). -/

namespace Sys2Proof.Machine

/-- `BAD_COMMAND` (R75): `STATUS.RESULT <- 6; STATUS.LAST_OP <- w[7:0]`, nothing else. -/
def execBadCommand (w : Word) (s : State) : Host.Outcome State Fault Refusal :=
  raiseResult .badCommand (wordOp w) s

end Sys2Proof.Machine
end

