-- ==== Sys2Proof/Machine/Dispatch.lean ====
section
/-! DEFINITION. Which meaning each command has. -/

namespace Sys2Proof.Machine

def exec (i : Instr) (s : State) : Host.Outcome State Fault Refusal :=
  match i with
  | .crcInit => Sys2Proof.Machine.execCrcInit s
  | .crcByte data => Sys2Proof.Machine.execCrcByte data s
  | .crcCheck lo hi => Sys2Proof.Machine.execCrcCheck lo hi s
  | .crcRx => Sys2Proof.Machine.execCrcRx s
  | .encRead => Sys2Proof.Machine.execEncRead s
  | .encZero => Sys2Proof.Machine.execEncZero s
  | .encBaud rate => Sys2Proof.Machine.execEncBaud rate s
  | .decRead => Sys2Proof.Machine.execDecRead s
  | .chkEcho => Sys2Proof.Machine.execChkEcho s
  | .chkHdr => Sys2Proof.Machine.execChkHdr s
  | .badCommand w => Sys2Proof.Machine.execBadCommand w s

end Sys2Proof.Machine
end

