-- ==== Sys2Proof/Machine/Bus.lean ====
section
/-! DEFINITION. The register window (spec/10_state.md rules R24 to R36) and the host's accesses to it (spec/20_memory.md
rules R50 to R58). A write to `CMD` is where a command runs (spec/30_encoding.md rule R70). -/

namespace Sys2Proof.Machine

/-! ## The register map (R35) -/

/-- The sixteen words of the window (R35). -/
inductive Reg where
  | cmd
  | status
  | crc
  | raw
  | txLen
  | txBuf (k : Fin 2)
  | rxLen
  | rxBuf (k : Fin 4)
  | reserved (k : Fin 4)
  deriving DecidableEq, Repr

/-- The offset of a register (R35). -/
def Reg.offset : Reg → Nat
  | .cmd => 0x00
  | .status => 0x04
  | .crc => 0x08
  | .raw => 0x0C
  | .txLen => 0x10
  | .txBuf k => 0x14 + 4 * k.val
  | .rxLen => 0x1C
  | .rxBuf k => 0x20 + 4 * k.val
  | .reserved k => 0x30 + 4 * k.val

/-- `WINDOW` (R8, R50): 64 bytes. -/
def windowSize : Nat := 0x40

/-- The window in the order of its offsets (R35). -/
def windowRegs : List Reg :=
  [ .cmd, .status, .crc, .raw, .txLen, .txBuf 0, .txBuf 1, .rxLen,
    .rxBuf 0, .rxBuf 1, .rxBuf 2, .rxBuf 3, .reserved 0, .reserved 1, .reserved 2, .reserved 3 ]

/-- The register of a supported access (R51): 4 bytes wide, at the offset of a register. None for every other access
(R52). -/
def accessedReg (offset width : Nat) : Option Reg :=
  if width = 4 then windowRegs.find? (fun r => r.offset == offset) else none

/-- The offset a host bus address selects, for a block placed at `base` (`CODEC_BASE`, R50, R9). None: the address is not
the block's. -/
def windowOffset (base address : Nat) : Option Nat :=
  if base ≤ address ∧ address < base + windowSize then some (address - base) else none

/-! ## Reading and writing a register -/

/-- The word a register reads as (R24 to R36). -/
def State.readReg (s : State) : Reg → Word
  | .cmd => 0
  | .status => statusWord s
  | .crc => s.crc.setWidth 32
  | .raw => s.raw
  | .txLen => s.txLen.setWidth 32
  | .txBuf k => s.txWord k
  | .rxLen => BitVec.ofNat 32 s.rxLen.val
  | .rxBuf k => s.rxWord k
  | .reserved _ => 0

/-- The byte of the window at an offset, as a read of its word shows it (R53: lane `j` is bits `[8j+7:8j]`). -/
def State.windowByte (s : State) (offset : Nat) : Byte :=
  match accessedReg (4 * (offset / 4)) 4 with
  | some r => lane (s.readReg r) (offset % 4)
  | none => 0

/-- The write of a word to a register (R32 to R36, R56): a command, a length, four buffer bytes, or nothing. -/
def writeReg (r : Reg) (v : Word) (s : State) : Host.Outcome State Fault Refusal :=
  match r with
  | .cmd => exec (decode v) s
  | .rxLen => .next (s.writeRxLen v)
  | .rxBuf k => .next (s.setRxWord k v)
  | .status => .next s
  | .crc => .next s
  | .raw => .next s
  | .txLen => .next s
  | .txBuf _ => .next s
  | .reserved _ => .next s

/-! ## Accesses -/

/-- A host read. It changes nothing (R56) but the reply. -/
def busRead (offset width : Nat) (s : State) : Host.Outcome State Fault Refusal :=
  if windowSize ≤ offset then .fault .outsideWindow
  else if s.inReset then .refused .accessDuringReset
  else match accessedReg offset width with
    | some r => .next (s.setReply (.word (s.readReg r)))
    | none => .next (s.setReply (.zeroLanes width))

/-- A host write. An unsupported one has no effect on any state (R52). -/
def busWrite (offset width : Nat) (v : Word) (s : State) : Host.Outcome State Fault Refusal :=
  if windowSize ≤ offset then .fault .outsideWindow
  else if s.inReset then .refused .accessDuringReset
  else match accessedReg offset width with
    | some r => writeReg r v s
    | none => .next s

/-- One event takes effect as one indivisible transition (R57, R194). -/
def hostEvent (e : HostEvent) (s : State) : Host.Outcome State Fault Refusal :=
  match e with
  | .read offset width => busRead offset width s
  | .write offset width v => busWrite offset width v s
  | .resetLine asserted => .next (s.driveReset asserted)

/-- The next event in arrival order (R58). With none pending the block does nothing: it never steps on its own (R20,
R191). -/
def nextEvent (s : State) : Host.Outcome State Fault Refusal :=
  match s.pending with
  | [] => .next s
  | e :: rest => hostEvent e (s.setPending rest)

/-- The command word `w` placed as the next event: a write of `CMD`, with reset released so that it is taken. -/
def placeCommand (w : Word) (s : State) : State :=
  (s.setInReset false).setPending (.write 0x00 4 w :: s.pending)

end Sys2Proof.Machine
end

