-- ==== Sys2Proof/Machine/Step.lean ====
section
/-! DEFINITION. One step of the machine: one event from outside (log entry 1). -/

namespace Sys2Proof.Machine

/-- One step (R20, R58, R194). -/
def step (s : State) : Host.Outcome State Fault Refusal := nextEvent s

/-- `s` with the command of a table word as the very next thing the machine takes: the host's write of it to `CMD`
(R70). The events that were pending follow it. -/
def State.withFetchWord (s : State) (nbits w : Nat) : State := placeCommand (tableWord nbits w) s

end Sys2Proof.Machine
end

