-- ==== Sys2Proof/Machine/Assembler.lean ====
section
/-! DEFINITION. The assembler lines of spec/30_encoding.md rules R80 and R81 and the bus accesses each expands to. Lines
are abstract, not text (log entry 15). Operands are written as numbers; one out of its range is an assembly error
(`none`). -/

namespace Sys2Proof.Machine

/-- One line of a program (R80, R81). -/
inductive AsmLine where
  /-- `WR <reg>, <value>`. -/
  | wr (reg : Reg) (value : Nat)
  /-- `RD <reg>`. -/
  | rd (reg : Reg)
  | crcInit
  | crcByte (d : Nat)
  | crcCheck (lo hi : Nat)
  | crcRx
  | encRead
  | encZero
  | encBaud (rate : Nat)
  | decRead
  | chkEcho
  | chkHdr
  /-- `CRC_SEQ b0, ..., bk`. -/
  | crcSeq (bytes : List Nat)
  /-- `LOAD_RX b0, ..., b(n-1)`. -/
  | loadRx (bytes : List Nat)
  deriving DecidableEq, Repr

/-- `BusWrite(offset(reg), v)` (R80). -/
def regWrite (r : Reg) (v : Word) : HostEvent := .write r.offset 4 v

/-- `BusRead(offset(reg))` (R80). -/
def regRead (r : Reg) : HostEvent := .read r.offset 4

/-- The write of a command to `CMD` (R80). -/
def cmdWrite (i : Instr) : HostEvent := regWrite .cmd (encode i)

/-- An operand of `n` bits, none when it is out of range (R80). -/
def operand (n v : Nat) : Option (BitVec n) := if v < 2 ^ n then some (BitVec.ofNat n v) else none

/-- A list of byte operands, none when one is out of range. -/
def byteOperands : List Nat → Option (List Byte)
  | [] => some []
  | v :: rest =>
    match operand 8 v, byteOperands rest with
    | some b, some bs => some (b :: bs)
    | _, _ => none

/-- The word of `LOAD_RX` for `RXBUF<k>`: bytes beyond the last taken as 0x00 (R81). -/
def loadRxWord (bytes : List Byte) (k : Nat) : Word :=
  packWord (bytes.getD (4 * k) 0) (bytes.getD (4 * k + 1) 0) (bytes.getD (4 * k + 2) 0) (bytes.getD (4 * k + 3) 0)

/-- `LOAD_RX` (R81): the words it needs, `RXBUF0` first, then the length. -/
def loadRxEvents (bytes : List Byte) : List HostEvent :=
  (List.range ((bytes.length + 3) / 4)).map (fun k => .write (0x20 + 4 * k) 4 (loadRxWord bytes k)) ++
    [regWrite .rxLen (BitVec.ofNat 32 bytes.length)]

/-- The accesses of one line; none is an assembly error (R80, R81). -/
def expandLine : AsmLine → Option (List HostEvent)
  | .wr r v => (operand 32 v).map (fun w => [regWrite r w])
  | .rd r => some [regRead r]
  | .crcInit => some [cmdWrite .crcInit]
  | .crcByte d => (operand 8 d).map (fun b => [cmdWrite (.crcByte b)])
  | .crcCheck lo hi =>
    match operand 8 lo, operand 8 hi with
    | some l, some h => some [cmdWrite (.crcCheck l h)]
    | _, _ => none
  | .crcRx => some [cmdWrite .crcRx]
  | .encRead => some [cmdWrite .encRead]
  | .encZero => some [cmdWrite .encZero]
  | .encBaud rate => (operand 24 rate).map (fun r => [cmdWrite (.encBaud r)])
  | .decRead => some [cmdWrite .decRead]
  | .chkEcho => some [cmdWrite .chkEcho]
  | .chkHdr => some [cmdWrite .chkHdr]
  | .crcSeq bytes =>
    if bytes.isEmpty then none
    else (byteOperands bytes).map (fun bs => cmdWrite .crcInit :: bs.map (fun b => cmdWrite (.crcByte b)))
  | .loadRx bytes =>
    if bytes.length ≤ 16 then (byteOperands bytes).map loadRxEvents else none

/-- The accesses of a program, in order; none when a line is an assembly error. -/
def assemble : List AsmLine → Option (List HostEvent)
  | [] => some []
  | line :: rest =>
    match expandLine line, assemble rest with
    | some es, some more => some (es ++ more)
    | _, _ => none

/-- `s` with accesses handed to the host's side, after those already pending. -/
def State.submit (s : State) (es : List HostEvent) : State := s.setPending (s.pending ++ es)

end Sys2Proof.Machine
end

