-- ==== Sys2Proof/Safety.lean ====
section
/-! DEFINITION. What a safe run is, in the terms the statements use: the invariant of the registers, and a host that
keeps to the window and to the reset rule. -/

namespace Sys2Proof.Machine

/-- The header and payload bytes of the seven request frames the block can build (spec/30_encoding.md R77,
spec/41_encode.md R124, R126). -/
def requestPayloads : List (Vector Byte 6) :=
  request fcRead regValue readCount :: request fcWrite regZero zeroValue ::
    rateTable.map (fun e => request fcWrite regBaud e.2)

/-- Which result codes a `LAST_OP` can stand beside (spec/60_exceptions.md R171, "commands that give it"). -/
def resultFitsOp (code : ResultCode) (op : Byte) : Bool :=
  match code with
  | .none => op == 0x00
  | .ok => [opCrcInit, opCrcByte, opCrcCheck, opCrcRx, opEncRead, opEncZero, opEncBaud, opDecRead, opChkEcho,
      opChkHdr].contains op
  | .truncated => [opDecRead, opChkEcho, opChkHdr].contains op
  | .malformed => [opDecRead, opChkHdr].contains op
  | .checksumMismatch => [opCrcCheck, opDecRead].contains op
  | .unsupportedBaud => op == opEncBaud
  | .badCommand => op != opEncBaud

/-- The invariant of the registers. -/
structure State.Inv (s : State) : Prop where
  /-- "Its only values are 0 and 8" (R30). -/
  txLenLegal : s.txLen = 0 ∨ s.txLen = 8
  /-- With `TXLEN` = 8 the buffer holds a whole request frame (R30, R31, R120, R126). -/
  txHoldsRequest : s.txLen = 8 → ∃ p ∈ requestPayloads, s.tx = frame p
  /-- `NONE`: no command has executed since reset (R27), so the registers only commands write hold their reset values
  (R39). -/
  noneMeansUntouched : s.result = .none →
    s.crc = crcSeed ∧ s.raw = 0 ∧ s.rawValid = false ∧ s.lastOp = 0x00 ∧ s.txLen = 0
  /-- A result stands beside an OP that can give it (R171). -/
  resultFits : resultFitsOp s.result s.lastOp = true
  /-- After a `DEC_READ`, `RAW_VALID` says whether it was accepted (R28). -/
  rawValidFits : s.lastOp = opDecRead → s.result ≠ .badCommand → (s.rawValid = true ↔ s.result = .ok)
  /-- After an `ENC_BAUD`, `TXLEN` says whether it was built (R30, R125). -/
  txLenFits : s.lastOp = opEncBaud → (s.txLen = 8 ↔ s.result = .ok)

/-- The host keeps to the window (R50) and makes no access while reset is asserted (R190: "the host must not access the
window"), given the level of the reset input before the events. -/
def hostObeys : Bool → List HostEvent → Bool
  | _, [] => true
  | inReset, .read offset _ :: rest => !inReset && decide (offset < windowSize) && hostObeys inReset rest
  | inReset, .write offset _ _ :: rest => !inReset && decide (offset < windowSize) && hostObeys inReset rest
  | _, .resetLine asserted :: rest => hostObeys asserted rest

/-- A step goes on. -/
def State.stepsOn (s : State) : Prop := ∃ t, step s = .next t

end Sys2Proof.Machine
end

