-- ==== Sys2Proof/Certificates/Slice0/Obligations.lean ====
section
/-! DEFINITION. The statements for the provers. Each says which rule of spec/ it formalises. Command words, offsets,
frame bytes and status values are written out as numbers from the spec, not through the model's own constants. -/

open Sys2Proof Sys2Proof.Machine

/-! ## Encoding -/

/-- The example words of spec/30_encoding.md R73, R74 and spec/95_test_vectors.md sections 2.2, 2.3, 2.7 decode to the
commands they stand for. -/
def Obligations.SpecWordsDecode : Prop :=
  decode 0x00000001 = .crcInit ∧ decode 0x00000102 = .crcByte 0x01 ∧ decode 0x0005C003 = .crcCheck 0xC0 0x05 ∧
  decode 0x00000004 = .crcRx ∧ decode 0x00000010 = .encRead ∧ decode 0x00000011 = .encZero ∧
  decode 0x00258012 = .encBaud 9600 ∧ decode 0xFFFFFF12 = .encBaud 0xFFFFFF ∧ decode 0x00000020 = .decRead ∧
  decode 0x00000021 = .chkEcho ∧ decode 0x00000022 = .chkHdr ∧ decode 0x00000000 = .badCommand 0x00000000 ∧
  decode 0x00000101 = .badCommand 0x00000101 ∧ decode 0x00010002 = .badCommand 0x00010002 ∧
  decode 0x01000003 = .badCommand 0x01000003

/-- Decoding the encoding of any well-formed command gives it back, every operand at every value (R71, R72, R73). -/
def Obligations.DecodeOfEncode : Prop :=
  ∀ i : Instr, i.wellFormed = true → decode (encode i) = i

/-- Encoding what a word decodes to gives the word back, and what it decodes to is well-formed: no bit of a word is
dropped and every word has one meaning (R70). -/
def Obligations.EncodeOfDecode : Prop :=
  ∀ w : Word, encode (decode w) = w ∧ (decode w).wellFormed = true

/-- R74: the illegal words are those whose OP is unassigned and those with a 1 in a reserved bit; at most one row of the
opcode map matches a word, and none matches exactly the illegal ones. -/
def Obligations.IllegalWordsMatchNoRow : Prop :=
  ∀ w : Word, (opTable.filter (fun r => r.hits w)).length ≤ 1 ∧
    (illegalWord w = true ↔ ∀ r ∈ opTable, r.hits w = false) ∧
    (illegalWord w = true ↔ decode w = .badCommand w)

/-- R72: operand assembly. `DATA = w[15:8]`; `LO = w[15:8]`, `HI = w[23:16]`, `EXP = HI ++ LO`; `RATE` is `w[31:8]`
zero-extended, below 2^24. -/
def Obligations.OperandsAreUnsignedFields : Prop :=
  (∀ (w : Word) (d : Byte), decode w = .crcByte d → d.toNat = w.toNat / 256 % 256) ∧
  (∀ (w : Word) (lo hi : Byte), decode w = .crcCheck lo hi →
    lo.toNat = w.toNat / 256 % 256 ∧ hi.toNat = w.toNat / 65536 % 256 ∧
    (expectedCrc lo hi).toNat = w.toNat / 256 % 65536) ∧
  (∀ (w : Word) (r : BitVec 24), decode w = .encBaud r →
    (rateOperand r).toNat = w.toNat / 256 ∧ (rateOperand r).toNat < 2 ^ 24)

/-! ## The CRC function -/

/-- R101: `crc_step`, and its five examples. -/
def Obligations.CrcStepIsEightShifts : Prop :=
  (∀ (c : Half) (b : Byte), crcStep c b =
    (fun x : Half => if x.getLsbD 0 = true then (x >>> 1) ^^^ 0xA001 else x >>> 1)^[8] (c ^^^ b.setWidth 16)) ∧
  crcStep 0xFFFF 0x01 = 0x807E ∧ crcStep 0xFFFF 0x00 = 0x40BF ∧ crcStep 0xFFFF 0xFF = 0x00FF ∧
  crcStep 0x0000 0x00 = 0x0000 ∧ crcStep 0x0000 0x01 = 0xC0C1

/-- R102: the empty sequence has the seed, each byte is taken in order, the check values, and a frame carries the low
byte first. -/
def Obligations.CrcStartsAtSeedAndTakesBytesInOrder : Prop :=
  crc16 [] = 0xFFFF ∧ (∀ (a : List Byte) (b : Byte), crc16 (a ++ [b]) = crcStep (crc16 a) b) ∧
  crc16 [0x01, 0x04, 0x00, 0x37, 0x00, 0x02] = 0x05C0 ∧
  crc16 [0x31, 0x32, 0x33, 0x34, 0x35, 0x36, 0x37, 0x38, 0x39] = 0x4B37 ∧
  (∀ p : Vector Byte 6,
    (frame p).toList.drop 6 = [(crc16 p.toList).extractLsb' 0 8, (crc16 p.toList).extractLsb' 8 8])

/-- R103: the CRC of a concatenation continues the accumulator; the order of the bytes matters, and feeding the CRC of
the first part as data ahead of the second is not the CRC of the whole. -/
def Obligations.CrcOfConcatenationContinues : Prop :=
  (∀ a b : List Byte, crc16 (a ++ b) = b.foldl crcStep (crc16 a)) ∧
  (∃ a b : List Byte, crc16 (a ++ b) ≠ crc16 (b ++ a)) ∧
  (∃ a b : List Byte, crc16 (a ++ b) ≠ crc16 ([(crc16 a).extractLsb' 0 8, (crc16 a).extractLsb' 8 8] ++ b))

/-- R108: the CRC of a sequence followed by its own CRC, low byte first, is 0. -/
def Obligations.CrcResidueIsZero : Prop :=
  ∀ p : List Byte, crc16 (p ++ [(crc16 p).extractLsb' 0 8, (crc16 p).extractLsb' 8 8]) = 0x0000

/-- R109: a one-bit change of a sequence or of its two CRC bytes turns the comparison from equal to unequal; and of a
read response that `DEC_READ` accepts, a one-bit change gives `MALFORMED` in bytes 0 to 2 and `CHECKSUM_MISMATCH` in every
later byte (spec/90_conflicts.md C1). -/
def Obligations.SingleBitChangesAreDetected : Prop :=
  (∀ (p : List Byte) (lo hi : Byte), crc16 p = hi ++ lo → ∀ k < 8,
    (∀ i, (h : i < p.length) → crc16 (p.set i (p[i] ^^^ (1#8 <<< k))) ≠ hi ++ lo) ∧
    crc16 p ≠ hi ++ (lo ^^^ (1#8 <<< k)) ∧ crc16 p ≠ (hi ^^^ (1#8 <<< k)) ++ lo) ∧
  (∀ s t : State, exec .decRead s = .next t → t.result = .ok →
    ∀ k < 8, ∀ i, (h : i < 16) → i < s.rxLen.val →
      exec .decRead { s with rx := s.rx.set i (s.rx[i] ^^^ (1#8 <<< k)) } =
        .next { s with
          rx := s.rx.set i (s.rx[i] ^^^ (1#8 <<< k)),
          rawValid := false,
          result := if i < 3 then .malformed else .checksumMismatch,
          lastOp := 0x20 })

/-- The corner case of R105 read literally: byte 0x00 changes every accumulator but 0x0000. Expected to FAIL: the
pseudocode of R101 has a second fixed point, 0xC001. -/
def Obligations.ZeroByteChangesEveryNonzeroCrc : Prop :=
  ∀ c : Half, c ≠ 0x0000 → crcStep c 0x00 ≠ c

/-! ## The CRC unit -/

/-- R104. -/
def Obligations.CrcInitSeedsAccumulator : Prop :=
  decode 0x00000001 = .crcInit ∧
  (∀ s : State, exec .crcInit s = .next { s with crc := 0xFFFF, result := .ok, lastOp := 0x01 }) ∧
  (∀ w : Word, w.toNat % 256 = 0x01 → w.toNat / 256 ≠ 0 →
    ∀ s : State, exec (decode w) s = .next { s with result := .badCommand, lastOp := 0x01 }) ∧
  (∀ s t : State, exec .crcInit s = .next t → exec .crcInit t = .next t) ∧
  exec .crcInit State.reset = .next { State.reset with result := .ok, lastOp := 0x01 } ∧
  (∀ s : State, s.crc = 0x1234 → s.rawValid = false →
    ∃ t, exec .crcInit s = .next t ∧ t.crc = 0xFFFF ∧ t.readReg .status = 0x00000101)

/-- R105, but for the clause of its corner cases that `ZeroByteChangesEveryNonzeroCrc` states. -/
def Obligations.CrcByteAccumulatesOneByte : Prop :=
  (∀ d : Byte, decode (BitVec.ofNat 32 (d.toNat * 256 + 0x02)) = .crcByte d) ∧
  (∀ (d : Byte) (s : State), exec (.crcByte d) s =
    .next { s with crc := crcStep s.crc d, result := .ok, lastOp := 0x02 }) ∧
  (∀ w : Word, w.toNat % 256 = 0x02 → w.toNat / 65536 ≠ 0 →
    ∀ s : State, exec (decode w) s = .next { s with result := .badCommand, lastOp := 0x02 }) ∧
  (∀ s : State, s.crc = 0xFFFF → ∃ t, exec (decode 0x00000102) s = .next t ∧ t.crc = 0x807E)

/-- R106. -/
def Obligations.CrcCheckComparesAccumulator : Prop :=
  (∀ lo hi : Byte, decode (BitVec.ofNat 32 (hi.toNat * 65536 + lo.toNat * 256 + 0x03)) = .crcCheck lo hi) ∧
  (∀ (lo hi : Byte) (s : State), exec (.crcCheck lo hi) s =
    .next { s with result := if s.crc = hi ++ lo then .ok else .checksumMismatch, lastOp := 0x03 }) ∧
  (∀ w : Word, w.toNat % 256 = 0x03 → w.toNat / 16777216 ≠ 0 →
    ∀ s : State, exec (decode w) s = .next { s with result := .badCommand, lastOp := 0x03 }) ∧
  (∀ lo hi : Byte, (expectedCrc lo hi).extractLsb' 0 8 = lo) ∧
  (∀ s : State, s.crc = crc16 [0x01, 0x04, 0x00, 0x37, 0x00, 0x02] → s.crc = 0x05C0 ∧
    exec (decode 0x0005C003) s = .next { s with result := .ok, lastOp := 0x03 } ∧
    exec (decode 0x00C00503) s = .next { s with result := .checksumMismatch, lastOp := 0x03 })

/-- R107. -/
def Obligations.CrcRxCoversReceivedFrame : Prop :=
  decode 0x00000004 = .crcRx ∧
  (∀ s : State, exec .crcRx s =
    .next { s with crc := crc16 (s.rx.toList.take s.rxLen.val), result := .ok, lastOp := 0x04 }) ∧
  (∀ s : State, s.rxLen = 0 → exec .crcRx s = .next { s with crc := 0xFFFF, result := .ok, lastOp := 0x04 }) ∧
  (∀ s : State, s.rxLen = 16 →
    exec .crcRx s = .next { s with crc := crc16 s.rx.toList, result := .ok, lastOp := 0x04 }) ∧
  (∀ (s : State) (p : List Byte) (lo hi : Byte), s.rx.toList.take s.rxLen.val = p ++ [lo, hi] → crc16 p = hi ++ lo →
    exec .crcRx s = .next { s with crc := 0x0000, result := .ok, lastOp := 0x04 }) ∧
  (∀ s : State, s.rx.toList.take s.rxLen.val = [0x01, 0x06, 0x00, 0x36, 0x00, 0x01] →
    exec .crcRx s = .next { s with crc := 0x04A8, result := .ok, lastOp := 0x04 })

/-- Streaming (R103 through R104, R105, R107; spec/95_test_vectors.md section 2.2): the host's writes of `CRC_INIT` and
then `CRC_BYTE` of each byte leave in `CRC` what `CRC_RX` gives over the same bytes. -/
def Obligations.ByteStreamEqualsCrcRx : Prop :=
  ∀ (bytes : List Byte) (s : State), s.inReset = false →
    s.pending = .write 0x00 4 0x00000001 ::
      bytes.map (fun b => .write 0x00 4 (BitVec.ofNat 32 (b.toNat * 256 + 0x02))) →
    ∃ t, core.run (bytes.length + 1) s = .next t ∧ t.pending = [] ∧ t.crc = crc16 bytes ∧
      (∀ u v : State, u.rx.toList.take u.rxLen.val = bytes → exec .crcRx u = .next v → v.crc = t.crc)

/-! ## The frame encoder -/

/-- R120: a frame is its six bytes, then the low and the high byte of their CRC. -/
def Obligations.FrameAppendsCrcLowByteFirst : Prop :=
  ∀ p : Vector Byte 6,
    (frame p).toList = p.toList ++ [(crc16 p.toList).extractLsb' 0 8, (crc16 p.toList).extractLsb' 8 8]

/-- R122. -/
def Obligations.EncReadBuildsReadRequest : Prop :=
  decode 0x00000010 = .encRead ∧
  (∀ s : State, exec .encRead s =
    .next { s with
      tx := #v[0x01, 0x04, 0x00, 0x37, 0x00, 0x02, 0xC0, 0x05], txLen := 8, result := .ok, lastOp := 0x10 }) ∧
  (∀ w : Word, w.toNat % 256 = 0x10 → w.toNat / 256 ≠ 0 →
    ∀ s : State, exec (decode w) s = .next { s with result := .badCommand, lastOp := 0x10 }) ∧
  (∀ s t : State, exec .encRead s = .next t → exec .encRead t = .next t ∧
    t.readReg (.txBuf 0) = 0x37000401 ∧ t.readReg (.txBuf 1) = 0x05C00200 ∧ t.readReg .txLen = 8)

/-- R123. -/
def Obligations.EncZeroBuildsZeroRequest : Prop :=
  decode 0x00000011 = .encZero ∧
  (∀ s : State, exec .encZero s =
    .next { s with
      tx := #v[0x01, 0x06, 0x00, 0x36, 0x00, 0x01, 0xA8, 0x04], txLen := 8, result := .ok, lastOp := 0x11 }) ∧
  (∀ w : Word, w.toNat % 256 = 0x11 → w.toNat / 256 ≠ 0 →
    ∀ s : State, exec (decode w) s = .next { s with result := .badCommand, lastOp := 0x11 }) ∧
  (∀ s t : State, exec .encZero s = .next t →
    t.readReg (.txBuf 0) = 0x36000601 ∧ t.readReg (.txBuf 1) = 0x04A80100)

/-- R124: the closed table of rate codes. -/
def Obligations.RateCodesAreExactlyTheTable : Prop :=
  ∀ rate : Word, rateCode rate =
    if rate = 9600 then some 0x0096 else if rate = 19200 then some 0x0192 else if rate = 38400 then some 0x0384
    else if rate = 57600 then some 0x0576 else if rate = 115200 then some 0x1152 else none

/-- R125: every rate is a valid operand; a candidate builds its frame (the bytes of spec/95_test_vectors.md section
1.2); any other rate leaves `TX`, clears `TXLEN` and gives `UNSUPPORTED_BAUD`. -/
def Obligations.EncBaudBuildsOrRejects : Prop :=
  (∀ rate : BitVec 24, decode (BitVec.ofNat 32 (rate.toNat * 256 + 0x12)) = .encBaud rate) ∧
  (∀ (rate : BitVec 24) (s : State), rate.toNat ∉ [9600, 19200, 38400, 57600, 115200] →
    exec (.encBaud rate) s = .next { s with txLen := 0, result := .unsupportedBaud, lastOp := 0x12 }) ∧
  (∀ (s : State) (e : BitVec 24 × Vector Byte 8),
    e ∈ [ (9600#24, #v[0x01, 0x06, 0x00, 0x31, 0x00, 0x96, 0x58, 0x6B]),
          (19200#24, #v[0x01, 0x06, 0x00, 0x31, 0x01, 0x92, 0x58, 0x38]),
          (38400#24, #v[0x01, 0x06, 0x00, 0x31, 0x03, 0x84, 0xD8, 0x96]),
          (57600#24, #v[0x01, 0x06, 0x00, 0x31, 0x05, 0x76, 0x5A, 0xB3]),
          (115200#24, #v[0x01, 0x06, 0x00, 0x31, 0x11, 0x52, 0x55, 0xA8]) ] →
    exec (.encBaud e.1) s = .next { s with tx := e.2, txLen := 8, result := .ok, lastOp := 0x12 }) ∧
  (∀ s t : State, exec (decode 0x00258012) s = .next t →
    t.readReg (.txBuf 0) = 0x31000601 ∧ t.readReg (.txBuf 1) = 0x6B589600) ∧
  (∀ s : State, exec (decode 0x00384012) s = .next { s with txLen := 0, result := .unsupportedBaud, lastOp := 0x12 })

/-- R121: a successful encoder command depends on the command word alone, sets `TXLEN` to 8 and changes `TX`, `TXLEN`
and the flags only. -/
def Obligations.EncoderDependsOnCommandAlone : Prop :=
  ∀ (i : Instr) (s t : State), (i = .encRead ∨ i = .encZero ∨ ∃ rate, i = .encBaud rate) →
    exec i s = .next t → t.result = .ok →
    (∃ p : Vector Byte 6, t = { s with tx := frame p, txLen := 8, result := .ok, lastOp := i.op }) ∧
    (∀ u : State, exec i u = .next { u with tx := t.tx, txLen := 8, result := .ok, lastOp := i.op })

/-! ## The frame decoder and the validators -/

/-- R143, with R141: length, then header, then CRC; on success the payload; on an error `RAW` is kept. -/
def Obligations.DecReadValidatesInOrder : Prop :=
  decode 0x00000020 = .decRead ∧
  (∀ s : State, s.rxLen.val < 9 →
    exec .decRead s = .next { s with rawValid := false, result := .truncated, lastOp := 0x20 }) ∧
  (∀ s : State, 9 ≤ s.rxLen.val → s.rx[0] ≠ 0x01 ∨ s.rx[1] ≠ 0x04 ∨ s.rx[2] ≠ 0x04 →
    exec .decRead s = .next { s with rawValid := false, result := .malformed, lastOp := 0x20 }) ∧
  (∀ (s : State) (p : List Byte) (lo hi : Byte), 9 ≤ s.rxLen.val →
    s.rx[0] = 0x01 → s.rx[1] = 0x04 → s.rx[2] = 0x04 → s.rx.toList.take s.rxLen.val = p ++ [lo, hi] →
    exec .decRead s = .next (if crc16 p = hi ++ lo then
        { s with raw := s.rx[3] ++ s.rx[4] ++ s.rx[5] ++ s.rx[6], rawValid := true, result := .ok, lastOp := 0x20 }
      else { s with rawValid := false, result := .checksumMismatch, lastOp := 0x20 })) ∧
  (∀ (s : State) (p : List Byte) (lo hi : Byte), 9 ≤ s.rxLen.val →
    s.rx[0] = 0x01 → s.rx[1] = 0x04 → s.rx[2] = 0x04 → s.rx.toList.take s.rxLen.val = p ++ [hi, lo] →
    crc16 p = hi ++ lo → hi ≠ lo →
    exec .decRead s = .next { s with rawValid := false, result := .checksumMismatch, lastOp := 0x20 }) ∧
  (∀ w : Word, w.toNat % 256 = 0x20 → w.toNat / 256 ≠ 0 →
    ∀ s : State, exec (decode w) s = .next { s with result := .badCommand, lastOp := 0x20 }) ∧
  (∀ s : State, s.rx.toList.take s.rxLen.val = [0x01, 0x04, 0x04, 0x00, 0x00, 0x30, 0x39, 0x2F, 0x96] →
    ∃ t, exec .decRead s = .next t ∧ t.raw = 0x00003039 ∧ t.readReg .status = 0x00002011) ∧
  (∀ s : State, s.raw = 0x80000000 → rawValue s = -2147483648) ∧ (∀ s : State, s.raw = 0xFFFFFFFF → rawValue s = -1)

/-- R142: the payload is bytes 3 to 6, big-endian, in two's complement, wherever the frame ends. -/
def Obligations.PayloadIsBigEndianTwosComplement : Prop :=
  ∀ s t : State, exec .decRead s = .next t → t.result = .ok →
    t.raw.toNat = s.rx[3].toNat * 16777216 + s.rx[4].toNat * 65536 + s.rx[5].toNat * 256 + s.rx[6].toNat ∧
    rawValue t = if t.raw.getLsbD 31 = true then (t.raw.toNat : Int) - 4294967296 else (t.raw.toNat : Int)

/-- R144: `RAW / SCALE_DIVISOR` exactly, and the document's two examples. -/
def Obligations.MeasurementIsExactQuotient : Prop :=
  (∀ (d : Config.ScaleDivisor) (s : State), measurement d s * (d.val : Rat) = (s.raw.toInt : Rat)) ∧
  Config.defaultScaleDivisor.val = 1000 ∧
  (∀ s : State, s.raw = 0x00003039 → measurement Config.defaultScaleDivisor s = 12345 / 1000) ∧
  (∀ s : State, s.raw = 0xFFFFCFC7 → measurement Config.defaultScaleDivisor s = -12345 / 1000)

/-- R145: a frame of 9 to 16 bytes that begins `01 04 04` and ends in the CRC of the rest is accepted, the payload at
bytes 3 to 6; and a correct 9-byte response followed by 0x00 is accepted, because a CRC's low byte appended leaves its
high byte. -/
def Obligations.LongFramesAreJudgedLiterally : Prop :=
  (∀ (s : State) (b3 b2 b1 b0 lo hi : Byte) (more : List Byte),
    s.rx.toList.take s.rxLen.val = 0x01 :: 0x04 :: 0x04 :: b3 :: b2 :: b1 :: b0 :: (more ++ [lo, hi]) →
    crc16 (0x01 :: 0x04 :: 0x04 :: b3 :: b2 :: b1 :: b0 :: more) = hi ++ lo →
    exec .decRead s = .next { s with raw := b3 ++ b2 ++ b1 ++ b0, rawValid := true, result := .ok, lastOp := 0x20 }) ∧
  (∀ (s u v : State) (f : List Byte), f.length = 9 → s.rx.toList.take s.rxLen.val = f →
    u.rx.toList.take u.rxLen.val = f ++ [0x00] → exec .decRead s = .next v → v.result = .ok →
    exec .decRead u = .next { u with raw := v.raw, rawValid := true, result := .ok, lastOp := 0x20 }) ∧
  (∀ p : List Byte, crc16 (p ++ [(crc16 p).extractLsb' 0 8]) = ((crc16 p).extractLsb' 8 8).setWidth 16) ∧
  (∀ s : State, s.rx.toList.take s.rxLen.val = [0x01, 0x04, 0x04, 0x00, 0x00, 0x30, 0x39, 0x2F, 0x96, 0x00] →
    exec .decRead s = .next { s with raw := 12345, rawValid := true, result := .ok, lastOp := 0x20 })

/-- R146: a frame whose function byte is not 0x04, a Modbus exception response or a write echo among them, is
`TRUNCATED` below 9 bytes and `MALFORMED` otherwise; the example frame `01 84 02 C2 C1` is `TRUNCATED`. -/
def Obligations.OtherFramesAreNeverAccepted : Prop :=
  (∀ s : State, s.rx[1] ≠ 0x04 → exec .decRead s =
    .next { s with
      rawValid := false, result := if s.rxLen.val < 9 then .truncated else .malformed, lastOp := 0x20 }) ∧
  (∀ s : State, s.rx.toList.take s.rxLen.val = [0x01, 0x84, 0x02, 0xC2, 0xC1] →
    exec .decRead s = .next { s with rawValid := false, result := .truncated, lastOp := 0x20 })

/-- R147. -/
def Obligations.ChkEchoJudgesLengthAlone : Prop :=
  decode 0x00000021 = .chkEcho ∧
  (∀ s : State, exec .chkEcho s =
    .next { s with result := if 8 ≤ s.rxLen.val then .ok else .truncated, lastOp := 0x21 }) ∧
  (∀ w : Word, w.toNat % 256 = 0x21 → w.toNat / 256 ≠ 0 →
    ∀ s : State, exec (decode w) s = .next { s with result := .badCommand, lastOp := 0x21 })

/-- R150. -/
def Obligations.ChkHdrChecksTwoBytes : Prop :=
  decode 0x00000022 = .chkHdr ∧
  (∀ s : State, exec .chkHdr s =
    .next { s with
      result := if s.rxLen.val < 2 then .truncated else if s.rx[0] ≠ 0x01 ∨ s.rx[1] ≠ 0x04 then .malformed else .ok,
      lastOp := 0x22 }) ∧
  (∀ w : Word, w.toNat % 256 = 0x22 → w.toNat / 256 ≠ 0 →
    ∀ s : State, exec (decode w) s = .next { s with result := .badCommand, lastOp := 0x22 }) ∧
  (∀ s : State, s.rx.toList.take s.rxLen.val = [0x01, 0x04, 0x04, 0x00, 0x00] →
    exec .chkHdr s = .next { s with result := .ok, lastOp := 0x22 } ∧
    exec .decRead s = .next { s with rawValid := false, result := .truncated, lastOp := 0x20 })

/-- R148: an `OK` of `DEC_READ` means the frame's CRC is right; an `OK` of `CHK_ECHO` or `CHK_HDR` does not. -/
def Obligations.OnlyDecReadVouchesForTheCrc : Prop :=
  (∀ s t : State, exec .decRead s = .next t → t.result = .ok →
    ∃ (p : List Byte) (lo hi : Byte), s.rx.toList.take s.rxLen.val = p ++ [lo, hi] ∧ crc16 p = hi ++ lo) ∧
  (∃ s t : State, exec .chkEcho s = .next t ∧ t.result = .ok ∧
    ∀ (p : List Byte) (lo hi : Byte), s.rx.toList.take s.rxLen.val = p ++ [lo, hi] → crc16 p ≠ hi ++ lo) ∧
  (∃ s t : State, exec .chkHdr s = .next t ∧ t.result = .ok ∧
    ∀ (p : List Byte) (lo hi : Byte), s.rx.toList.take s.rxLen.val = p ++ [lo, hi] → crc16 p ≠ hi ++ lo)

/-- R151: relations between the three commands on the same frame. -/
def Obligations.HeaderAndReadResultsAgree : Prop :=
  ∀ s : State, ∃ t u e, exec .decRead s = .next t ∧ exec .chkHdr s = .next u ∧ exec .chkEcho s = .next e ∧
    (t.result = .ok → u.result = .ok) ∧
    (u.result = .malformed → t.result = .truncated ∨ t.result = .malformed)

/-- R140: bytes of `RX` at and above `RXLEN` are never read, by any command: changing them changes nothing else; and the
decoder and the validators write neither `RX`, `RXLEN`, `TX`, `TXLEN` nor `CRC`. -/
def Obligations.BytesAboveRxLenAreUnread : Prop :=
  (∀ (i : Instr) (s t : State) (other : Vector Byte 16),
    other.toList.take s.rxLen.val = s.rx.toList.take s.rxLen.val → exec i s = .next t →
    exec i { s with rx := other } = .next { t with rx := other }) ∧
  (∀ (i : Instr) (s t : State), i = .decRead ∨ i = .chkEcho ∨ i = .chkHdr → exec i s = .next t →
    t.rx = s.rx ∧ t.rxLen = s.rxLen ∧ t.tx = s.tx ∧ t.txLen = s.txLen ∧ t.crc = s.crc)

/-! ## Rules about every command -/

/-- R75, R74: an illegal word reports `BAD_COMMAND` and its OP and changes nothing else; the words 0 and 0xFF. -/
def Obligations.IllegalWordReportsBadCommand : Prop :=
  (∀ (w : Word) (s : State), illegalWord w = true → exec (decode w) s =
    .next { s with result := .badCommand, lastOp := BitVec.ofNat 8 (w.toNat % 256) }) ∧
  (∀ (w : Word) (s : State), exec (.badCommand w) s =
    .next { s with result := .badCommand, lastOp := BitVec.ofNat 8 (w.toNat % 256) }) ∧
  (∀ s t : State, s.rawValid = false → exec (decode 0x00000000) s = .next t → t.readReg .status = 0x00000006) ∧
  (∀ s t : State, exec (decode 0x000000FF) s = .next t →
    (t.readReg .status).extractLsb' 0 4 = 6 ∧ (t.readReg .status).extractLsb' 8 8 = 0xFF)

/-- R29, R70, R170: whatever word is written, the command completes, `LAST_OP` is its bits [7:0] and `RESULT` is not
`NONE`. -/
def Obligations.EveryCommandCompletesAndReports : Prop :=
  ∀ (w : Word) (s : State), ∃ t, exec (decode w) s = .next t ∧ t.lastOp.toNat = w.toNat % 256 ∧ t.result ≠ .none

/-- R171, with the priorities of R174: the causes of every result code. -/
def Obligations.ResultCodesHaveTheirCauses : Prop :=
  State.reset.result = .none ∧ State.reset.lastOp = 0x00 ∧
  ∀ (i : Instr) (s t : State), exec i s = .next t →
    t.lastOp = i.op ∧ t.result ≠ .none ∧
    (t.result = .truncated ↔ (i = .decRead ∧ s.rxLen.val < 9) ∨ (i = .chkEcho ∧ s.rxLen.val < 8) ∨
      (i = .chkHdr ∧ s.rxLen.val < 2)) ∧
    (t.result = .malformed ↔
      (i = .decRead ∧ 9 ≤ s.rxLen.val ∧ (s.rx[0] ≠ 0x01 ∨ s.rx[1] ≠ 0x04 ∨ s.rx[2] ≠ 0x04)) ∨
      (i = .chkHdr ∧ 2 ≤ s.rxLen.val ∧ (s.rx[0] ≠ 0x01 ∨ s.rx[1] ≠ 0x04))) ∧
    (t.result = .checksumMismatch ↔
      (i = .decRead ∧ 9 ≤ s.rxLen.val ∧ s.rx[0] = 0x01 ∧ s.rx[1] = 0x04 ∧ s.rx[2] = 0x04 ∧
        ∃ (p : List Byte) (lo hi : Byte), s.rx.toList.take s.rxLen.val = p ++ [lo, hi] ∧ crc16 p ≠ hi ++ lo) ∨
      (∃ lo hi, i = .crcCheck lo hi ∧ s.crc ≠ hi ++ lo)) ∧
    (t.result = .unsupportedBaud ↔
      ∃ rate, i = .encBaud rate ∧ rate.toNat ∉ [9600, 19200, 38400, 57600, 115200]) ∧
    (t.result = .badCommand ↔ ∃ w, i = .badCommand w) ∧
    (i = .decRead → t.result ≠ .ok → t.rawValid = false) ∧
    (t.result = .unsupportedBaud → t.txLen = 0)

/-- R175: a failing command writes `RESULT` and `LAST_OP`, `RAW_VALID` for `DEC_READ` and `TXLEN` for `ENC_BAUD`, and
nothing else. -/
def Obligations.FailedCommandsArePrecise : Prop :=
  ∀ (i : Instr) (s t : State), exec i s = .next t → t.result ≠ .ok →
    t = { s with
      result := t.result,
      lastOp := i.op,
      rawValid := if i = .decRead then false else s.rawValid,
      txLen := if ∃ rate, i = .encBaud rate then 0 else s.txLen }

/-- R24, R25, R28, R30 to R33: which commands write which register; no command writes `RX`, `RXLEN` or anything of the
host's side. -/
def Obligations.RegistersHaveTheirWriters : Prop :=
  ∀ (i : Instr) (s t : State), exec i s = .next t →
    (t.crc ≠ s.crc → i = .crcInit ∨ (∃ d, i = .crcByte d) ∨ i = .crcRx) ∧
    (t.raw ≠ s.raw → i = .decRead ∧ t.result = .ok) ∧
    (t.rawValid ≠ s.rawValid → i = .decRead) ∧
    (t.tx ≠ s.tx → (i = .encRead ∨ i = .encZero ∨ ∃ rate, i = .encBaud rate) ∧ t.result = .ok) ∧
    (t.txLen ≠ s.txLen → i = .encRead ∨ i = .encZero ∨ ∃ rate, i = .encBaud rate) ∧
    t.rxLen = s.rxLen ∧ t.rx = s.rx ∧ t.inReset = s.inReset ∧ t.pending = s.pending ∧ t.reply = s.reply ∧
    t.draws = s.draws

/-- R24, R25, R30, R31, R33, R38 read byte by byte: the bytes of the window a command can change, all others reading as
before. -/
def Obligations.CommandsChangeTheirWindowBytes : Prop :=
  ∀ (i : Instr) (s t : State), exec i s = .next t → ∀ a : Nat,
    ¬ (0x04 ≤ a ∧ a < 0x08) →
    ((i = .crcInit ∨ (∃ d, i = .crcByte d) ∨ i = .crcRx) → ¬ (0x08 ≤ a ∧ a < 0x0C)) →
    (i = .decRead → ¬ (0x0C ≤ a ∧ a < 0x10)) →
    ((i = .encRead ∨ i = .encZero ∨ ∃ rate, i = .encBaud rate) → ¬ (0x10 ≤ a ∧ a < 0x1C)) →
    t.windowByte a = s.windowByte a

/-- R38, R176: no command reads a flag: with other flags before it, a command gives the same result and the same
registers; only a `RAW_VALID` it does not write stays what it was. -/
def Obligations.CommandsIgnoreEarlierFlags : Prop :=
  ∀ (i : Instr) (s t : State) (code : ResultCode) (op : Byte) (valid : Bool), exec i s = .next t →
    exec i { s with result := code, lastOp := op, rawValid := valid } =
      .next { t with rawValid := if i = .decRead then t.rawValid else valid }

/-! ## The bus -/

/-- R70: a supported write of `w` to `CMD` executes the command `w` decodes to: the step is `exec` of it, with the access
taken. -/
def Obligations.StepRunsDecodedCommand : Prop :=
  ∀ (s : State) (w : Word) (i : Instr) (rest : List HostEvent), s.inReset = false →
    s.pending = .write 0x00 4 w :: rest → decode w = i →
    step s = exec i { s with pending := rest }

/-- R26, R27: the fields of `STATUS` as the bus reads it. -/
def Obligations.StatusWordHasItsFields : Prop :=
  ∀ s : State,
    (s.readReg .status).extractLsb' 0 4 = (match s.result with
      | .none => 0 | .ok => 1 | .truncated => 2 | .malformed => 3 | .checksumMismatch => 4 | .unsupportedBaud => 5
      | .badCommand => 6) ∧
    (s.readReg .status).getLsbD 4 = s.rawValid ∧
    (s.readReg .status).extractLsb' 5 3 = 0 ∧
    (s.readReg .status).extractLsb' 8 8 = s.lastOp ∧
    (s.readReg .status).extractLsb' 16 16 = 0

/-- R35, R51: a read of each of the sixteen words answers the register's value, and takes nothing but the access. -/
def Obligations.ReadsFollowTheRegisterMap : Prop :=
  ∀ (s : State) (offset : Nat) (rest : List HostEvent), s.inReset = false →
    s.pending = .read offset 4 :: rest → offset % 4 = 0 → offset < 64 →
    step s = .next { s with
      pending := rest
      reply := .word (
        if offset = 0x04 then s.readReg .status
        else if offset = 0x08 then BitVec.ofNat 32 s.crc.toNat
        else if offset = 0x0C then s.raw
        else if offset = 0x10 then BitVec.ofNat 32 s.txLen.toNat
        else if offset = 0x14 then s.tx[3] ++ s.tx[2] ++ s.tx[1] ++ s.tx[0]
        else if offset = 0x18 then s.tx[7] ++ s.tx[6] ++ s.tx[5] ++ s.tx[4]
        else if offset = 0x1C then BitVec.ofNat 32 s.rxLen.val
        else if offset = 0x20 then s.rx[3] ++ s.rx[2] ++ s.rx[1] ++ s.rx[0]
        else if offset = 0x24 then s.rx[7] ++ s.rx[6] ++ s.rx[5] ++ s.rx[4]
        else if offset = 0x28 then s.rx[11] ++ s.rx[10] ++ s.rx[9] ++ s.rx[8]
        else if offset = 0x2C then s.rx[15] ++ s.rx[14] ++ s.rx[13] ++ s.rx[12]
        else 0) }

/-- After R52: an access that begins inside the window and is not 4 bytes wide, or not at a multiple of 4, has no effect; a
read of that kind answers 0 in every lane. That this holds also of an access that reaches past the end of the window, 4
bytes at 0x3D to 0x3F or 8 bytes at 0x3C, and of a read of no byte, is the model's inference (log entry 9). -/
def Obligations.UnsupportedAccessesHaveNoEffect : Prop :=
  ∀ (s : State) (offset width : Nat) (v : Word) (rest : List HostEvent), s.inReset = false → offset < 64 →
    width ≠ 4 ∨ offset % 4 ≠ 0 →
    (s.pending = .write offset width v :: rest → step s = .next { s with pending := rest }) ∧
    (s.pending = .read offset width :: rest →
      step s = .next { s with pending := rest, reply := .zeroLanes width })

/-- R53: buffer byte `4k + j` is at bits `[8j+7 : 8j]` of word `k`, for reads of both buffers and for writes of `RX`. -/
def Obligations.BufferPackingIsLittleEndian : Prop :=
  ∀ (s : State) (j : Nat), (hj : j < 4) →
    (∀ k : Fin 2, (s.readReg (.txBuf k)).extractLsb' (8 * j) 8 = s.tx[4 * k.val + j]) ∧
    (∀ k : Fin 4, (s.readReg (.rxBuf k)).extractLsb' (8 * j) 8 = s.rx[4 * k.val + j]) ∧
    (∀ (k : Fin 4) (v : Word) (t : State), writeReg (.rxBuf k) v s = .next t →
      t.rx[4 * k.val + j] = v.extractLsb' (8 * j) 8)

/-- R33: a write of an `RXBUF` word writes its four bytes and nothing else, and a read of it then returns the word; no
command writes `RX`. -/
def Obligations.RxBufWritesFourBytes : Prop :=
  (∀ (s : State) (k : Fin 4) (v : Word) (rest : List HostEvent), s.inReset = false →
    s.pending = .write (0x20 + 4 * k.val) 4 v :: rest →
    ∃ rx' : Vector Byte 16, step s = .next { s with pending := rest, rx := rx' } ∧
      ({ s with pending := rest, rx := rx' } : State).readReg (.rxBuf k) = v ∧
      (∀ i, (h : i < 16) → i / 4 ≠ k.val → rx'[i] = s.rx[i])) ∧
  (∀ (i : Instr) (s t : State), exec i s = .next t → t.rx = s.rx)

/-- R32: a write of `RXLEN` takes a 32-bit value of at most 16 and ignores any other; a read returns the length; the
length is at most 16; no command writes it. -/
def Obligations.RxLenWriteIsBounded : Prop :=
  (∀ (s : State) (v : Word) (rest : List HostEvent), s.inReset = false →
    s.pending = .write 0x1C 4 v :: rest →
    (16 < v.toNat → step s = .next { s with pending := rest }) ∧
    (v.toNat ≤ 16 → ∃ n : Fin 17, n.val = v.toNat ∧ n.val = (v.extractLsb' 0 5).toNat ∧
      step s = .next { s with pending := rest, rxLen := n })) ∧
  (∀ s : State, (s.readReg .rxLen).toNat = s.rxLen.val ∧ s.rxLen.val ≤ 16) ∧
  (∀ (i : Instr) (s t : State), exec i s = .next t → t.rxLen = s.rxLen)

/-- R34: `CMD` reads 0 without effect, and a write of it executes. -/
def Obligations.CmdReadsZeroAndStoresNothing : Prop :=
  ∀ (s : State) (rest : List HostEvent), s.inReset = false →
    (s.pending = .read 0x00 4 :: rest → step s = .next { s with pending := rest, reply := .word 0 }) ∧
    (∀ w : Word, s.pending = .write 0x00 4 w :: rest → step s = exec (decode w) { s with pending := rest })

/-- R36: reserved words and bits read 0; writes of reserved words and read-only registers have no effect. -/
def Obligations.ReadOnlyAndReservedWritesAreIgnored : Prop :=
  (∀ (s : State) (offset : Nat) (v : Word) (rest : List HostEvent), s.inReset = false →
    s.pending = .write offset 4 v :: rest →
    offset ∈ [0x04, 0x08, 0x0C, 0x10, 0x14, 0x18, 0x30, 0x34, 0x38, 0x3C] →
    step s = .next { s with pending := rest }) ∧
  (∀ s : State, (∀ k, s.readReg (.reserved k) = 0) ∧ (s.readReg .cmd) = 0 ∧
    (s.readReg .status).extractLsb' 5 3 = 0 ∧ (s.readReg .status).extractLsb' 16 16 = 0 ∧
    (s.readReg .crc).extractLsb' 16 16 = 0 ∧ (s.readReg .txLen).extractLsb' 4 28 = 0 ∧
    (s.readReg .rxLen).extractLsb' 5 27 = 0)

/-- R56: a read changes nothing but the data answered, and two reads with no write between them answer the same; of the
writes, `CMD` executes, `RXLEN` and `RXBUF` store, and every other has no effect. -/
def Obligations.OnlyWritesHaveSideEffects : Prop :=
  (∀ (s : State) (offset width : Nat) (rest : List HostEvent), s.inReset = false → offset < 64 →
    s.pending = .read offset width :: .read offset width :: rest →
    ∃ r : BusReply, step s = .next { s with pending := .read offset width :: rest, reply := r } ∧
      core.run 2 s = .next { s with pending := rest, reply := r }) ∧
  (∀ (s : State) (offset width : Nat) (v : Word) (rest : List HostEvent), s.inReset = false → offset < 64 →
    s.pending = .write offset width v :: rest → offset ≠ 0x00 →
    ∃ t, step s = .next t ∧ t = { s with pending := rest, rxLen := t.rxLen, rx := t.rx } ∧
      (offset ≠ 0x1C → t.rxLen = s.rxLen) ∧ (offset < 0x20 ∨ 0x30 ≤ offset → t.rx = s.rx) ∧
      (width = 4 → offset = 0x1C → v.toNat ≤ 16 → t.rxLen.val = v.toNat) ∧
      (width = 4 → ∀ k : Fin 4, offset = 0x20 + 4 * k.val → t.readReg (.rxBuf k) = v)) ∧
  (∀ (s : State) (w : Word) (rest : List HostEvent), s.inReset = false → s.pending = .write 0x00 4 w :: rest →
    step s = exec (decode w) { s with pending := rest })

/-- The model's own convention (log entry 7): an access whose offset is outside the window is a fault. -/
def Obligations.AccessOutsideWindowFaults : Prop :=
  ∀ (s : State) (offset width : Nat) (v : Word) (rest : List HostEvent), 64 ≤ offset →
    (s.pending = .read offset width :: rest → step s = .fault .outsideWindow) ∧
    (s.pending = .write offset width v :: rest → step s = .fault .outsideWindow)

/-- R50: every offset of the window has one address, `CODEC_BASE + offset`; and (R181) blocks at different multiples of
64 answer no common address. -/
def Obligations.WindowsAreSixtyFourBytesApart : Prop :=
  (∀ base offset : Nat, offset < 64 → windowOffset base (base + offset) = some offset) ∧
  (∀ base address offset : Nat, windowOffset base address = some offset → offset < 64 ∧ address = base + offset) ∧
  (∀ base other address : Nat, base % 64 = 0 → other % 64 = 0 → base ≠ other →
    windowOffset base address = none ∨ windowOffset other address = none)

/-! ## Assembler lines -/

/-- R80 and R81: the expansions of the two bus operations, of the ten mnemonics and of the two further
pseudo-instructions, and the assembly errors. That `WR` and `RD` take the reserved words, and that a `WR` value of 2^32 or
more is an assembly error, are the model's inferences (log entry 15). -/
def Obligations.MnemonicsExpandToCommandWrites : Prop :=
  (∀ r : Reg, expandLine (.rd r) = some [.read r.offset 4]) ∧
  (∀ (r : Reg) (v : Nat), expandLine (.wr r v) =
    if v < 2 ^ 32 then some [.write r.offset 4 (BitVec.ofNat 32 v)] else none) ∧
  (∀ d : Nat, expandLine (.crcByte d) =
    if d ≤ 0xFF then some [.write 0x00 4 (BitVec.ofNat 32 (d <<< 8 ||| 0x02))] else none) ∧
  (∀ lo hi : Nat, expandLine (.crcCheck lo hi) =
    if lo ≤ 0xFF ∧ hi ≤ 0xFF then some [.write 0x00 4 (BitVec.ofNat 32 (hi <<< 16 ||| lo <<< 8 ||| 0x03))] else none) ∧
  (∀ rate : Nat, expandLine (.encBaud rate) =
    if rate ≤ 0xFFFFFF then some [.write 0x00 4 (BitVec.ofNat 32 (rate <<< 8 ||| 0x12))] else none) ∧
  expandLine .crcInit = some [.write 0x00 4 0x00000001] ∧ expandLine .crcRx = some [.write 0x00 4 0x00000004] ∧
  expandLine .encRead = some [.write 0x00 4 0x00000010] ∧ expandLine .encZero = some [.write 0x00 4 0x00000011] ∧
  expandLine .decRead = some [.write 0x00 4 0x00000020] ∧ expandLine .chkEcho = some [.write 0x00 4 0x00000021] ∧
  expandLine .chkHdr = some [.write 0x00 4 0x00000022] ∧
  (∀ bytes : List Byte, bytes ≠ [] → expandLine (.crcSeq (bytes.map (fun b => b.toNat))) =
    some (.write 0x00 4 0x00000001 ::
      bytes.map (fun b => .write 0x00 4 (BitVec.ofNat 32 (b.toNat <<< 8 ||| 0x02))))) ∧
  (∀ bytes : List Byte, bytes.length ≤ 16 → expandLine (.loadRx (bytes.map (fun b => b.toNat))) =
    some ((List.range ((bytes.length + 3) / 4)).map (fun k => .write (0x20 + 4 * k) 4
        (bytes.getD (4 * k + 3) 0x00 ++ bytes.getD (4 * k + 2) 0x00 ++ bytes.getD (4 * k + 1) 0x00 ++
          bytes.getD (4 * k) 0x00)) ++
      [.write 0x1C 4 (BitVec.ofNat 32 bytes.length)])) ∧
  (∀ values : List Nat, (∃ v ∈ values, 0xFF < v) →
    expandLine (.crcSeq values) = none ∧ expandLine (.loadRx values) = none)

/-- R81, `LOAD_RX`: its accesses, taken by a block out of reset, put the bytes into `RX` and their count into `RXLEN`,
fill the last word with 0x00, and leave every higher byte and every other register. -/
def Obligations.LoadRxLoadsTheFrame : Prop :=
  ∀ (bytes : List Byte) (s : State), bytes.length ≤ 16 → s.inReset = false → s.pending = loadRxEvents bytes →
    ∃ t, core.run ((bytes.length + 3) / 4 + 1) s = .next t ∧
      t.rx.toList.take t.rxLen.val = bytes ∧ t.rxLen.val = bytes.length ∧
      (∀ i, (h : i < 16) → bytes.length ≤ i → t.rx[i] = if i < (bytes.length + 3) / 4 * 4 then 0x00 else s.rx[i]) ∧
      t = { s with pending := [], rx := t.rx, rxLen := t.rxLen }

/-! ## Reset -/

/-- The state right after reset, after R39. `TX` and `RX` are a draw of `BUF_RESET`, about which nothing is said; that the
power-up reset takes draw number 0 is the model's own choice (log entry 4). -/
def Obligations.ResetLeavesSpecValues : Prop :=
  State.reset.crc = 0xFFFF ∧ State.reset.raw = 0x00000000 ∧ State.reset.result = .none ∧
  State.reset.rawValid = false ∧ State.reset.lastOp = 0x00 ∧ State.reset.txLen = 0 ∧ State.reset.rxLen = 0 ∧
  State.reset.tx = Config.txBufReset 0 ∧ State.reset.rx = Config.rxBufReset 0 ∧
  State.reset.readReg .status = 0x00000000

/-- R190 at any later reset: while the input is asserted an access is refused, and its release gives every register its
reset value, whatever it held. The model's own choices: that assertion keeps the registers (log entry 6), and which draw of
`BUF_RESET` the buffers take (log entry 4). -/
def Obligations.EndOfResetGivesResetValues : Prop :=
  (∀ (s : State) (rest : List HostEvent), s.pending = .resetLine true :: rest →
    step s = .next { s with pending := rest, inReset := true }) ∧
  (∀ (s : State) (offset width : Nat) (v : Word) (rest : List HostEvent), s.inReset = true → offset < 64 →
    s.pending = .read offset width :: rest ∨ s.pending = .write offset width v :: rest →
    step s = .refused .accessDuringReset) ∧
  (∀ (s : State) (rest : List HostEvent), s.inReset = true → s.pending = .resetLine false :: rest →
    step s = .next { State.reset with
      tx := Config.txBufReset s.draws, rx := Config.rxBufReset s.draws,
      pending := rest, reply := s.reply, draws := s.draws + 1 })

/-- R190, "no command and no register write resets the block", R38, R32 and R33: a step changes `CRC`, `RAW`, `TX`,
`TXLEN` and the flags only by a supported write of `CMD`, `RXLEN` only by a write of it of at most 16, a byte of `RX` only by
a write of its `RXBUF` word, and any of them by the end of a reset. That asserting the reset input, and releasing one that
is not asserted, change none of them is the model's own choice (log entry 6): the spec does not say it. -/
def Obligations.OnlyCommandsAndResetChangeResults : Prop :=
  ∀ s t : State, step s = .next t →
    ((t.crc ≠ s.crc ∨ t.raw ≠ s.raw ∨ t.result ≠ s.result ∨ t.rawValid ≠ s.rawValid ∨ t.lastOp ≠ s.lastOp ∨
      t.txLen ≠ s.txLen ∨ t.tx ≠ s.tx) →
      (∃ w rest, s.pending = .write 0x00 4 w :: rest ∧ s.inReset = false) ∨
      (∃ rest, s.pending = .resetLine false :: rest ∧ s.inReset = true)) ∧
    (t.rxLen ≠ s.rxLen →
      (∃ v rest, s.pending = .write 0x1C 4 v :: rest ∧ s.inReset = false ∧ v.toNat ≤ 16) ∨
      (∃ rest, s.pending = .resetLine false :: rest ∧ s.inReset = true)) ∧
    (∀ i, (h : i < 16) → t.rx[i] ≠ s.rx[i] →
      (∃ v rest, s.pending = .write (0x20 + 4 * (i / 4)) 4 v :: rest ∧ s.inReset = false) ∨
      (∃ rest, s.pending = .resetLine false :: rest ∧ s.inReset = true))

/-! ## Invariants and safety -/

/-- The invariant holds right after reset. -/
def Obligations.ResetMeetsTheRegisterInvariant : Prop :=
  State.Inv State.reset

/-- Every step keeps the invariant (R27, R28, R30, R31, R171): `TXLEN` is 0 or 8, with 8 the buffer is a whole request
frame, `NONE` means no command has run, and a result fits its OP. For the assertion of the reset input it rests on the
model's choice that the registers are kept (log entry 6). -/
def Obligations.StepKeepsTheRegisterInvariant : Prop :=
  ∀ s t : State, State.Inv s → step s = .next t → State.Inv t

/-- R28 through every step, in three cases: the write of `DEC_READ` out of reset leaves `RAW_VALID` 1 exactly when it
returned `OK`; the end of a reset leaves it 0; every other step leaves it as it was. That asserting the reset input, and
releasing one that is not asserted, are among those other steps is the model's own choice (log entry 6). -/
def Obligations.RawValidFollowsDecRead : Prop :=
  (∀ (s : State) (rest : List HostEvent), s.inReset = false → s.pending = .write 0x00 4 0x00000020 :: rest →
    ∃ t, step s = .next t ∧ t.lastOp = 0x20 ∧ (t.rawValid = true ↔ t.result = .ok)) ∧
  (∀ (s : State) (rest : List HostEvent), s.inReset = true → s.pending = .resetLine false :: rest →
    ∃ t, step s = .next t ∧ t.rawValid = false) ∧
  (∀ s t : State, step s = .next t →
    (∀ rest, ¬ (s.inReset = false ∧ s.pending = .write 0x00 4 0x00000020 :: rest)) →
    (∀ rest, ¬ (s.inReset = true ∧ s.pending = .resetLine false :: rest)) →
    t.rawValid = s.rawValid)

/-- R170, R194: under a host that keeps to the window and to the reset rule the block never stops, however many steps it
takes. -/
def Obligations.ObedientHostIsNeverStopped : Prop :=
  ∀ (n : Nat) (s : State), hostObeys s.inReset s.pending = true → ∃ t, core.run n s = .next t
end

