-- ==== Sys2Proof/Laws/State.lean ====
section
/-! SUPPORT. One lemma per field per register update, each true by definition: what an update writes and that it leaves
every other field. Later proofs rewrite with these and never unfold an update. -/

namespace Sys2Proof.Machine

section
variable (s : State) (v : Half)
@[simp] theorem State.setCrc_crc : (s.setCrc v).crc = v := rfl
@[simp] theorem State.setCrc_raw : (s.setCrc v).raw = s.raw := rfl
@[simp] theorem State.setCrc_result : (s.setCrc v).result = s.result := rfl
@[simp] theorem State.setCrc_rawValid : (s.setCrc v).rawValid = s.rawValid := rfl
@[simp] theorem State.setCrc_lastOp : (s.setCrc v).lastOp = s.lastOp := rfl
@[simp] theorem State.setCrc_txLen : (s.setCrc v).txLen = s.txLen := rfl
@[simp] theorem State.setCrc_tx : (s.setCrc v).tx = s.tx := rfl
@[simp] theorem State.setCrc_rxLen : (s.setCrc v).rxLen = s.rxLen := rfl
@[simp] theorem State.setCrc_rx : (s.setCrc v).rx = s.rx := rfl
@[simp] theorem State.setCrc_inReset : (s.setCrc v).inReset = s.inReset := rfl
@[simp] theorem State.setCrc_pending : (s.setCrc v).pending = s.pending := rfl
@[simp] theorem State.setCrc_reply : (s.setCrc v).reply = s.reply := rfl
@[simp] theorem State.setCrc_draws : (s.setCrc v).draws = s.draws := rfl
end

section
variable (s : State) (v : Word)
@[simp] theorem State.setRaw_crc : (s.setRaw v).crc = s.crc := rfl
@[simp] theorem State.setRaw_raw : (s.setRaw v).raw = v := rfl
@[simp] theorem State.setRaw_result : (s.setRaw v).result = s.result := rfl
@[simp] theorem State.setRaw_rawValid : (s.setRaw v).rawValid = s.rawValid := rfl
@[simp] theorem State.setRaw_lastOp : (s.setRaw v).lastOp = s.lastOp := rfl
@[simp] theorem State.setRaw_txLen : (s.setRaw v).txLen = s.txLen := rfl
@[simp] theorem State.setRaw_tx : (s.setRaw v).tx = s.tx := rfl
@[simp] theorem State.setRaw_rxLen : (s.setRaw v).rxLen = s.rxLen := rfl
@[simp] theorem State.setRaw_rx : (s.setRaw v).rx = s.rx := rfl
@[simp] theorem State.setRaw_inReset : (s.setRaw v).inReset = s.inReset := rfl
@[simp] theorem State.setRaw_pending : (s.setRaw v).pending = s.pending := rfl
@[simp] theorem State.setRaw_reply : (s.setRaw v).reply = s.reply := rfl
@[simp] theorem State.setRaw_draws : (s.setRaw v).draws = s.draws := rfl
end

section
variable (s : State) (b : Bool)
@[simp] theorem State.setRawValid_crc : (s.setRawValid b).crc = s.crc := rfl
@[simp] theorem State.setRawValid_raw : (s.setRawValid b).raw = s.raw := rfl
@[simp] theorem State.setRawValid_result : (s.setRawValid b).result = s.result := rfl
@[simp] theorem State.setRawValid_rawValid : (s.setRawValid b).rawValid = b := rfl
@[simp] theorem State.setRawValid_lastOp : (s.setRawValid b).lastOp = s.lastOp := rfl
@[simp] theorem State.setRawValid_txLen : (s.setRawValid b).txLen = s.txLen := rfl
@[simp] theorem State.setRawValid_tx : (s.setRawValid b).tx = s.tx := rfl
@[simp] theorem State.setRawValid_rxLen : (s.setRawValid b).rxLen = s.rxLen := rfl
@[simp] theorem State.setRawValid_rx : (s.setRawValid b).rx = s.rx := rfl
@[simp] theorem State.setRawValid_inReset : (s.setRawValid b).inReset = s.inReset := rfl
@[simp] theorem State.setRawValid_pending : (s.setRawValid b).pending = s.pending := rfl
@[simp] theorem State.setRawValid_reply : (s.setRawValid b).reply = s.reply := rfl
@[simp] theorem State.setRawValid_draws : (s.setRawValid b).draws = s.draws := rfl
end

section
variable (s : State) (n : BitVec 4)
@[simp] theorem State.setTxLen_crc : (s.setTxLen n).crc = s.crc := rfl
@[simp] theorem State.setTxLen_raw : (s.setTxLen n).raw = s.raw := rfl
@[simp] theorem State.setTxLen_result : (s.setTxLen n).result = s.result := rfl
@[simp] theorem State.setTxLen_rawValid : (s.setTxLen n).rawValid = s.rawValid := rfl
@[simp] theorem State.setTxLen_lastOp : (s.setTxLen n).lastOp = s.lastOp := rfl
@[simp] theorem State.setTxLen_txLen : (s.setTxLen n).txLen = n := rfl
@[simp] theorem State.setTxLen_tx : (s.setTxLen n).tx = s.tx := rfl
@[simp] theorem State.setTxLen_rxLen : (s.setTxLen n).rxLen = s.rxLen := rfl
@[simp] theorem State.setTxLen_rx : (s.setTxLen n).rx = s.rx := rfl
@[simp] theorem State.setTxLen_inReset : (s.setTxLen n).inReset = s.inReset := rfl
@[simp] theorem State.setTxLen_pending : (s.setTxLen n).pending = s.pending := rfl
@[simp] theorem State.setTxLen_reply : (s.setTxLen n).reply = s.reply := rfl
@[simp] theorem State.setTxLen_draws : (s.setTxLen n).draws = s.draws := rfl
end

section
variable (s : State) (f : Vector Byte 8)
@[simp] theorem State.setTx_crc : (s.setTx f).crc = s.crc := rfl
@[simp] theorem State.setTx_raw : (s.setTx f).raw = s.raw := rfl
@[simp] theorem State.setTx_result : (s.setTx f).result = s.result := rfl
@[simp] theorem State.setTx_rawValid : (s.setTx f).rawValid = s.rawValid := rfl
@[simp] theorem State.setTx_lastOp : (s.setTx f).lastOp = s.lastOp := rfl
@[simp] theorem State.setTx_txLen : (s.setTx f).txLen = s.txLen := rfl
@[simp] theorem State.setTx_tx : (s.setTx f).tx = f := rfl
@[simp] theorem State.setTx_rxLen : (s.setTx f).rxLen = s.rxLen := rfl
@[simp] theorem State.setTx_rx : (s.setTx f).rx = s.rx := rfl
@[simp] theorem State.setTx_inReset : (s.setTx f).inReset = s.inReset := rfl
@[simp] theorem State.setTx_pending : (s.setTx f).pending = s.pending := rfl
@[simp] theorem State.setTx_reply : (s.setTx f).reply = s.reply := rfl
@[simp] theorem State.setTx_draws : (s.setTx f).draws = s.draws := rfl
end

section
variable (s : State) (n : Fin 17)
@[simp] theorem State.setRxLen_crc : (s.setRxLen n).crc = s.crc := rfl
@[simp] theorem State.setRxLen_raw : (s.setRxLen n).raw = s.raw := rfl
@[simp] theorem State.setRxLen_result : (s.setRxLen n).result = s.result := rfl
@[simp] theorem State.setRxLen_rawValid : (s.setRxLen n).rawValid = s.rawValid := rfl
@[simp] theorem State.setRxLen_lastOp : (s.setRxLen n).lastOp = s.lastOp := rfl
@[simp] theorem State.setRxLen_txLen : (s.setRxLen n).txLen = s.txLen := rfl
@[simp] theorem State.setRxLen_tx : (s.setRxLen n).tx = s.tx := rfl
@[simp] theorem State.setRxLen_rxLen : (s.setRxLen n).rxLen = n := rfl
@[simp] theorem State.setRxLen_rx : (s.setRxLen n).rx = s.rx := rfl
@[simp] theorem State.setRxLen_inReset : (s.setRxLen n).inReset = s.inReset := rfl
@[simp] theorem State.setRxLen_pending : (s.setRxLen n).pending = s.pending := rfl
@[simp] theorem State.setRxLen_reply : (s.setRxLen n).reply = s.reply := rfl
@[simp] theorem State.setRxLen_draws : (s.setRxLen n).draws = s.draws := rfl
end

section
variable (s : State) (b : Vector Byte 16)
@[simp] theorem State.setRx_crc : (s.setRx b).crc = s.crc := rfl
@[simp] theorem State.setRx_raw : (s.setRx b).raw = s.raw := rfl
@[simp] theorem State.setRx_result : (s.setRx b).result = s.result := rfl
@[simp] theorem State.setRx_rawValid : (s.setRx b).rawValid = s.rawValid := rfl
@[simp] theorem State.setRx_lastOp : (s.setRx b).lastOp = s.lastOp := rfl
@[simp] theorem State.setRx_txLen : (s.setRx b).txLen = s.txLen := rfl
@[simp] theorem State.setRx_tx : (s.setRx b).tx = s.tx := rfl
@[simp] theorem State.setRx_rxLen : (s.setRx b).rxLen = s.rxLen := rfl
@[simp] theorem State.setRx_rx : (s.setRx b).rx = b := rfl
@[simp] theorem State.setRx_inReset : (s.setRx b).inReset = s.inReset := rfl
@[simp] theorem State.setRx_pending : (s.setRx b).pending = s.pending := rfl
@[simp] theorem State.setRx_reply : (s.setRx b).reply = s.reply := rfl
@[simp] theorem State.setRx_draws : (s.setRx b).draws = s.draws := rfl
end

section
variable (s : State) (b : Bool)
@[simp] theorem State.setInReset_crc : (s.setInReset b).crc = s.crc := rfl
@[simp] theorem State.setInReset_raw : (s.setInReset b).raw = s.raw := rfl
@[simp] theorem State.setInReset_result : (s.setInReset b).result = s.result := rfl
@[simp] theorem State.setInReset_rawValid : (s.setInReset b).rawValid = s.rawValid := rfl
@[simp] theorem State.setInReset_lastOp : (s.setInReset b).lastOp = s.lastOp := rfl
@[simp] theorem State.setInReset_txLen : (s.setInReset b).txLen = s.txLen := rfl
@[simp] theorem State.setInReset_tx : (s.setInReset b).tx = s.tx := rfl
@[simp] theorem State.setInReset_rxLen : (s.setInReset b).rxLen = s.rxLen := rfl
@[simp] theorem State.setInReset_rx : (s.setInReset b).rx = s.rx := rfl
@[simp] theorem State.setInReset_inReset : (s.setInReset b).inReset = b := rfl
@[simp] theorem State.setInReset_pending : (s.setInReset b).pending = s.pending := rfl
@[simp] theorem State.setInReset_reply : (s.setInReset b).reply = s.reply := rfl
@[simp] theorem State.setInReset_draws : (s.setInReset b).draws = s.draws := rfl
end

section
variable (s : State) (es : List HostEvent)
@[simp] theorem State.setPending_crc : (s.setPending es).crc = s.crc := rfl
@[simp] theorem State.setPending_raw : (s.setPending es).raw = s.raw := rfl
@[simp] theorem State.setPending_result : (s.setPending es).result = s.result := rfl
@[simp] theorem State.setPending_rawValid : (s.setPending es).rawValid = s.rawValid := rfl
@[simp] theorem State.setPending_lastOp : (s.setPending es).lastOp = s.lastOp := rfl
@[simp] theorem State.setPending_txLen : (s.setPending es).txLen = s.txLen := rfl
@[simp] theorem State.setPending_tx : (s.setPending es).tx = s.tx := rfl
@[simp] theorem State.setPending_rxLen : (s.setPending es).rxLen = s.rxLen := rfl
@[simp] theorem State.setPending_rx : (s.setPending es).rx = s.rx := rfl
@[simp] theorem State.setPending_inReset : (s.setPending es).inReset = s.inReset := rfl
@[simp] theorem State.setPending_pending : (s.setPending es).pending = es := rfl
@[simp] theorem State.setPending_reply : (s.setPending es).reply = s.reply := rfl
@[simp] theorem State.setPending_draws : (s.setPending es).draws = s.draws := rfl
end

section
variable (s : State) (r : BusReply)
@[simp] theorem State.setReply_crc : (s.setReply r).crc = s.crc := rfl
@[simp] theorem State.setReply_raw : (s.setReply r).raw = s.raw := rfl
@[simp] theorem State.setReply_result : (s.setReply r).result = s.result := rfl
@[simp] theorem State.setReply_rawValid : (s.setReply r).rawValid = s.rawValid := rfl
@[simp] theorem State.setReply_lastOp : (s.setReply r).lastOp = s.lastOp := rfl
@[simp] theorem State.setReply_txLen : (s.setReply r).txLen = s.txLen := rfl
@[simp] theorem State.setReply_tx : (s.setReply r).tx = s.tx := rfl
@[simp] theorem State.setReply_rxLen : (s.setReply r).rxLen = s.rxLen := rfl
@[simp] theorem State.setReply_rx : (s.setReply r).rx = s.rx := rfl
@[simp] theorem State.setReply_inReset : (s.setReply r).inReset = s.inReset := rfl
@[simp] theorem State.setReply_pending : (s.setReply r).pending = s.pending := rfl
@[simp] theorem State.setReply_reply : (s.setReply r).reply = r := rfl
@[simp] theorem State.setReply_draws : (s.setReply r).draws = s.draws := rfl
end

section
variable (s : State) (code : ResultCode) (op : Byte)
@[simp] theorem State.report_crc : (s.report code op).crc = s.crc := rfl
@[simp] theorem State.report_raw : (s.report code op).raw = s.raw := rfl
@[simp] theorem State.report_result : (s.report code op).result = code := rfl
@[simp] theorem State.report_rawValid : (s.report code op).rawValid = s.rawValid := rfl
@[simp] theorem State.report_lastOp : (s.report code op).lastOp = op := rfl
@[simp] theorem State.report_txLen : (s.report code op).txLen = s.txLen := rfl
@[simp] theorem State.report_tx : (s.report code op).tx = s.tx := rfl
@[simp] theorem State.report_rxLen : (s.report code op).rxLen = s.rxLen := rfl
@[simp] theorem State.report_rx : (s.report code op).rx = s.rx := rfl
@[simp] theorem State.report_inReset : (s.report code op).inReset = s.inReset := rfl
@[simp] theorem State.report_pending : (s.report code op).pending = s.pending := rfl
@[simp] theorem State.report_reply : (s.report code op).reply = s.reply := rfl
@[simp] theorem State.report_draws : (s.report code op).draws = s.draws := rfl
end

section
variable (n : Nat)
@[simp] theorem State.afterReset_crc : (State.afterReset n).crc = crcSeed := rfl
@[simp] theorem State.afterReset_raw : (State.afterReset n).raw = 0 := rfl
@[simp] theorem State.afterReset_result : (State.afterReset n).result = .none := rfl
@[simp] theorem State.afterReset_rawValid : (State.afterReset n).rawValid = false := rfl
@[simp] theorem State.afterReset_lastOp : (State.afterReset n).lastOp = 0x00 := rfl
@[simp] theorem State.afterReset_txLen : (State.afterReset n).txLen = 0 := rfl
@[simp] theorem State.afterReset_tx : (State.afterReset n).tx = Config.txBufReset n := rfl
@[simp] theorem State.afterReset_rxLen : (State.afterReset n).rxLen = 0 := rfl
@[simp] theorem State.afterReset_rx : (State.afterReset n).rx = Config.rxBufReset n := rfl
@[simp] theorem State.afterReset_inReset : (State.afterReset n).inReset = false := rfl
@[simp] theorem State.afterReset_pending : (State.afterReset n).pending = [] := rfl
@[simp] theorem State.afterReset_reply : (State.afterReset n).reply = .none := rfl
@[simp] theorem State.afterReset_draws : (State.afterReset n).draws = n + 1 := rfl
end

end Sys2Proof.Machine
end

