-- ==== Sys2Proof/Laws/Ops.lean ====
section
/-! SUPPORT. What the shared operations over the buffers and over reset do, each said once. -/

namespace Sys2Proof.Machine

/-- `RX[i]` inside the buffer is the byte the vector holds. -/
theorem State.rxByte_eq (s : State) (i : Nat) (h : i < 16) : s.rxByte i = s.rx[i] := by
  have hl : i < s.rx.toList.length := by simpa using h
  rw [State.rxByte, List.getD_eq_getElem?_getD, List.getElem?_eq_getElem hl]
  simp

theorem State.rxPrefix_length (s : State) (n : Nat) (h : n ≤ 16) : (s.rxPrefix n).length = n := by
  simp [State.rxPrefix, h]

/-- The received frame has `RXLEN` bytes. -/
theorem State.received_length (s : State) : s.received.length = s.rxLen.val :=
  s.rxPrefix_length _ (by omega)

theorem State.rxPrefix_getElem (s : State) (n i : Nat) (h : i < (s.rxPrefix n).length) :
    (s.rxPrefix n)[i] = s.rxByte i := by
  have hl : i < s.rx.toList.length := by
    have : (s.rxPrefix n).length ≤ s.rx.toList.length := by simp [State.rxPrefix]
    omega
  rw [State.rxByte, List.getD_eq_getElem?_getD, List.getElem?_eq_getElem hl]
  simp [State.rxPrefix]

/-- A longer prefix of the buffer, cut shorter, is the shorter prefix. -/
theorem State.take_rxPrefix (s : State) (m n : Nat) (h : m ≤ n) : (s.rxPrefix n).take m = s.rxPrefix m := by
  simp [State.rxPrefix, List.take_take, Nat.min_eq_left h]

/-- A received frame of at least two bytes is its leading bytes and the two trailing ones. -/
theorem State.received_split (s : State) (h : 2 ≤ s.rxLen.val) :
    s.received = s.rxPrefix (s.rxLen.val - 2) ++ [s.rxByte (s.rxLen.val - 2), s.rxByte (s.rxLen.val - 1)] := by
  have hn : s.rxLen.val ≤ 16 := by omega
  apply List.ext_getElem
  · simp only [State.received_length, List.length_append, State.rxPrefix_length _ _ (show s.rxLen.val - 2 ≤ 16 by omega)]
    simp only [List.length_cons, List.length_nil]
    omega
  · intro i h1 h2
    have hi : i < s.rxLen.val := by simpa only [State.received_length] using h1
    have hr : s.received[i] = s.rxByte i := s.rxPrefix_getElem _ _ _
    rw [hr, List.getElem_append]
    have hl := s.rxPrefix_length (s.rxLen.val - 2) (by omega)
    split
    · rw [State.rxPrefix_getElem]
    · by_cases he : i = s.rxLen.val - 2
      · subst he
        simp [hl]
      · have he' : i = s.rxLen.val - 1 := by omega
        subst he'
        have h3 : s.rxLen.val - 1 - (s.rxPrefix (s.rxLen.val - 2)).length = 1 := by omega
        simp [h3]

/-- A received frame that ends in two given bytes has them as its trailing bytes, and the rest before them. -/
theorem State.received_eq_append (s : State) (p : List Byte) (lo hi : Byte) (h : s.received = p ++ [lo, hi]) :
    2 ≤ s.rxLen.val ∧ s.rxPrefix (s.rxLen.val - 2) = p ∧ s.rxByte (s.rxLen.val - 2) = lo ∧
      s.rxByte (s.rxLen.val - 1) = hi := by
  have hlen : s.rxLen.val = p.length + 2 := by
    rw [← State.received_length, h]
    simp
  have h2 : 2 ≤ s.rxLen.val := by omega
  rw [State.received_split s h2] at h
  have hpl := s.rxPrefix_length (s.rxLen.val - 2) (by omega)
  have := List.append_inj h (by omega)
  refine ⟨h2, this.1, ?_, ?_⟩
  · simpa using congrArg (fun l => l.head?) this.2
  · simpa using congrArg (fun l => l.getLast?) this.2

/-- A lane of a packed word. -/
theorem lane_packWord (b0 b1 b2 b3 : Byte) :
    lane (packWord b0 b1 b2 b3) 0 = b0 ∧ lane (packWord b0 b1 b2 b3) 1 = b1 ∧
      lane (packWord b0 b1 b2 b3) 2 = b2 ∧ lane (packWord b0 b1 b2 b3) 3 = b3 := by
  have h : ∀ i, (packWord b0 b1 b2 b3).getLsbD i =
      if i < 8 then b0.getLsbD i else if i - 8 < 8 then b1.getLsbD (i - 8)
      else if i - 8 - 8 < 8 then b2.getLsbD (i - 8 - 8) else b3.getLsbD (i - 8 - 8 - 8) := by
    intro i
    have h3 : (packWord b0 b1 b2 b3).getLsbD i =
        BitVec.getLsbD (w := 8 + 8 + 8 + 8) (b3 ++ b2 ++ b1 ++ b0) i := rfl
    rw [h3, BitVec.getLsbD_append, BitVec.getLsbD_append, BitVec.getLsbD_append]
  refine ⟨?_, ?_, ?_, ?_⟩ <;> apply BitVec.eq_of_getLsbD_eq <;> intro i hi <;>
    simp only [lane, BitVec.getLsbD_extractLsb', hi, decide_true, Bool.true_and] <;> rw [h]
  · simp [hi]
  · simp [hi]
  · simp [hi, show ¬ 16 + i < 8 by omega, show ¬ 16 + i - 8 < 8 by omega, show 16 + i - 8 - 8 = i by omega]
  · simp [show ¬ 24 + i < 8 by omega, show ¬ 24 + i - 8 < 8 by omega, show ¬ 24 + i - 8 - 8 < 8 by omega,
      show 24 + i - 8 - 8 - 8 = i by omega]

/-- The four lanes of a word, packed, are the word. -/
theorem packWord_lanes (v : Word) : packWord (lane v 0) (lane v 1) (lane v 2) (lane v 3) = v := by
  have h := lane_packWord (lane v 0) (lane v 1) (lane v 2) (lane v 3)
  apply BitVec.eq_of_getLsbD_eq
  intro i hi
  have key : ∀ (x y : Word) (j : Nat), lane x j = lane y j → ∀ m < 8, x.getLsbD (8 * j + m) = y.getLsbD (8 * j + m) := by
    intro x y j he m hm
    have := congrArg (fun b => BitVec.getLsbD b m) he
    simpa [lane, BitVec.getLsbD_extractLsb', hm] using this
  have hj : i = 8 * (i / 8) + i % 8 := by omega
  rw [hj]
  have hi8 : i / 8 < 4 := by omega
  have hm : i % 8 < 8 := Nat.mod_lt _ (by omega)
  generalize i / 8 = j at hi8
  interval_cases j
  · exact key _ _ 0 h.1 _ hm
  · exact key _ _ 1 h.2.1 _ hm
  · exact key _ _ 2 h.2.2.1 _ hm
  · exact key _ _ 3 h.2.2.2 _ hm

/-- A write of `RXBUF<k>` touches `RX` alone. -/
theorem State.setRxWord_eq (k : Fin 4) (v : Word) (s : State) :
    s.setRxWord k v = { s with rx := (s.setRxWord k v).rx } := rfl

/-- A write of `RXBUF<k>`, byte by byte (R53): its own four bytes are the word's lanes, every other byte stays. -/
theorem State.setRxWord_getElem (k : Fin 4) (v : Word) (s : State) (i : Nat) (h : i < 16) :
    (s.setRxWord k v).rx[i] = if i / 4 = k.val then lane v (i % 4) else s.rx[i] := by
  simp only [State.setRxWord, State.setRx_rx, Vector.getElem_set]
  by_cases hk : i / 4 = k.val
  · have hm : i % 4 < 4 := Nat.mod_lt _ (by omega)
    rw [if_pos hk]
    have hi : i = 4 * k.val + i % 4 := by omega
    generalize i % 4 = j at hm hi
    subst hi
    interval_cases j <;> simp
  · rw [if_neg hk, if_neg (by omega), if_neg (by omega), if_neg (by omega), if_neg (by omega)]

/-- A write of `RXLEN` touches `RXLEN` alone. -/
theorem State.writeRxLen_cases (v : Word) (s : State) :
    (∃ n : Fin 17, n.val = v.toNat ∧ s.writeRxLen v = s.setRxLen n) ∨ (16 < v.toNat ∧ s.writeRxLen v = s) := by
  unfold State.writeRxLen
  by_cases h : v.toNat < 17
  · exact .inl ⟨⟨v.toNat, h⟩, rfl, dif_pos h⟩
  · exact .inr ⟨by omega, dif_neg h⟩

/-- The reset input never changes a register except by ending a reset (R190). -/
theorem State.driveReset_cases (a : Bool) (s : State) :
    (a = true ∧ s.driveReset a = s.setInReset true) ∨ (a = false ∧ s.inReset = true ∧ s.driveReset a = s.endReset) ∨
      (a = false ∧ s.inReset = false ∧ s.driveReset a = s) := by
  unfold State.driveReset
  cases a <;> cases h : s.inReset <;> simp

end Sys2Proof.Machine
end

