-- ==== Sys2Proof/Laws/Exec.lean ====
section
/-! SUPPORT. What each meaning with more than one outcome can answer, said once: later proofs cite these and never
unfold a meaning. The other meanings are one update and one report. -/

namespace Sys2Proof.Machine

theorem finishOk_eq (op : Byte) (s : State) : finishOk op s = .next { s with result := .ok, lastOp := op } := rfl

theorem raiseResult_eq (code : ResultCode) (op : Byte) (s : State) :
    raiseResult code op s = .next { s with result := code, lastOp := op } := rfl

theorem execCrcCheck_cases (lo hi : Byte) (s : State) :
    (s.crc = expectedCrc lo hi ∧ execCrcCheck lo hi s = .next (s.report .ok opCrcCheck)) ∨
    (s.crc ≠ expectedCrc lo hi ∧ execCrcCheck lo hi s = .next (s.report .checksumMismatch opCrcCheck)) := by
  unfold execCrcCheck
  split <;> rename_i h
  · exact .inl ⟨h, rfl⟩
  · exact .inr ⟨h, rfl⟩

/-- A rate is a candidate with a code of the table, or has none (R124). -/
theorem rateCode_cases (rate : Word) :
    (rate.toNat ∉ [9600, 19200, 38400, 57600, 115200] ∧ rateCode rate = none) ∨
    (∃ e ∈ rateTable, rate = e.1 ∧ rateCode rate = some e.2) := by
  unfold rateCode
  cases h : rateTable.find? (fun e => e.1 == rate) with
  | some e =>
    have he : (e.1 == rate) = true := List.find?_some (p := fun e : Word × Half => e.1 == rate) h
    exact .inr ⟨e, List.mem_of_find?_eq_some h, (beq_iff_eq.1 he).symm, rfl⟩
  | none =>
    refine .inl ⟨?_, rfl⟩
    rw [List.find?_eq_none] at h
    intro hm
    have hv : ∀ n : Nat, rate.toNat = n → rate = BitVec.ofNat 32 n := by
      intro n hn
      rw [← hn, BitVec.ofNat_toNat, BitVec.setWidth_eq]
    simp only [List.mem_cons, List.not_mem_nil, or_false] at hm
    have hno : ∀ c : Half, ∀ n : Nat, rate.toNat = n → (BitVec.ofNat 32 n, c) ∈ rateTable → False := by
      intro c n hn hmem
      exact h _ hmem (beq_iff_eq.2 (hv n hn).symm)
    rcases hm with hm | hm | hm | hm | hm
    · exact hno 0x0096 _ hm (by simp [rateTable])
    · exact hno 0x0192 _ hm (by simp [rateTable])
    · exact hno 0x0384 _ hm (by simp [rateTable])
    · exact hno 0x0576 _ hm (by simp [rateTable])
    · exact hno 0x1152 _ hm (by simp [rateTable])

theorem execEncBaud_cases (rate : BitVec 24) (s : State) :
    (rate.toNat ∉ [9600, 19200, 38400, 57600, 115200] ∧
      execEncBaud rate s = .next ((s.setTxLen 0).report .unsupportedBaud opEncBaud)) ∨
    (∃ e ∈ rateTable, rateOperand rate = e.1 ∧
      execEncBaud rate s = .next (((s.setTx (frame (request fcWrite regBaud e.2))).setTxLen 8).report .ok opEncBaud)) := by
  unfold execEncBaud
  have hw : (rateOperand rate).toNat = rate.toNat := by
    rw [rateOperand, BitVec.toNat_setWidth]
    have := rate.isLt
    omega
  rcases rateCode_cases (rateOperand rate) with ⟨hn, h⟩ | ⟨e, he, hr, h⟩
  · exact .inl ⟨hw ▸ hn, by rw [h]; rfl⟩
  · exact .inr ⟨e, he, hr, by rw [h]; rfl⟩

/-- The four outcomes of `DEC_READ`, each with its condition (R141, R143). -/
theorem execDecRead_cases (s : State) :
    (s.rxLen.val < readRespLen ∧ execDecRead s = .next ((s.setRawValid false).report .truncated opDecRead)) ∨
    (readRespLen ≤ s.rxLen.val ∧ readHeaderOk s = false ∧
      execDecRead s = .next ((s.setRawValid false).report .malformed opDecRead)) ∨
    (readRespLen ≤ s.rxLen.val ∧ readHeaderOk s = true ∧ trailingCrcOk s = false ∧
      execDecRead s = .next ((s.setRawValid false).report .checksumMismatch opDecRead)) ∨
    (readRespLen ≤ s.rxLen.val ∧ readHeaderOk s = true ∧ trailingCrcOk s = true ∧
      execDecRead s = .next (((s.setRaw (payload s)).setRawValid true).report .ok opDecRead)) := by
  unfold execDecRead readResponseResult
  by_cases h1 : s.rxLen.val < readRespLen
  · exact .inl ⟨h1, by rw [if_pos h1]; rfl⟩
  have h1' : readRespLen ≤ s.rxLen.val := by omega
  rw [if_neg h1]
  by_cases h2 : readHeaderOk s = false
  · exact .inr (.inl ⟨h1', h2, by rw [if_pos h2]; rfl⟩)
  have h2' : readHeaderOk s = true := by simpa using h2
  rw [if_neg h2]
  by_cases h3 : trailingCrcOk s = false
  · exact .inr (.inr (.inl ⟨h1', h2', h3, by rw [if_pos h3]; rfl⟩))
  · exact .inr (.inr (.inr ⟨h1', h2', by simpa using h3, by rw [if_neg h3]; rfl⟩))

theorem execChkEcho_cases (s : State) :
    (echoMinLen ≤ s.rxLen.val ∧ execChkEcho s = .next (s.report .ok opChkEcho)) ∨
    (s.rxLen.val < echoMinLen ∧ execChkEcho s = .next (s.report .truncated opChkEcho)) := by
  unfold execChkEcho
  split <;> rename_i h
  · exact .inl ⟨h, rfl⟩
  · exact .inr ⟨by omega, rfl⟩

theorem execChkHdr_cases (s : State) :
    (s.rxLen.val < hdrMinLen ∧ execChkHdr s = .next (s.report .truncated opChkHdr)) ∨
    (hdrMinLen ≤ s.rxLen.val ∧ (s.rxByte 0 ≠ slaveAddr ∨ s.rxByte 1 ≠ fcRead) ∧
      execChkHdr s = .next (s.report .malformed opChkHdr)) ∨
    (hdrMinLen ≤ s.rxLen.val ∧ s.rxByte 0 = slaveAddr ∧ s.rxByte 1 = fcRead ∧
      execChkHdr s = .next (s.report .ok opChkHdr)) := by
  unfold execChkHdr
  by_cases h1 : s.rxLen.val < hdrMinLen
  · exact .inl ⟨h1, by rw [if_pos h1]; rfl⟩
  rw [if_neg h1]
  by_cases h2 : s.rxByte 0 ≠ slaveAddr ∨ s.rxByte 1 ≠ fcRead
  · exact .inr (.inl ⟨by omega, h2, by rw [if_pos h2]; rfl⟩)
  · rw [if_neg h2]
    push Not at h2
    exact .inr (.inr ⟨by omega, h2.1, h2.2, rfl⟩)

/-- The header check, on the bytes (R141(b)). -/
theorem readHeaderOk_iff (s : State) :
    readHeaderOk s = true ↔ s.rx[0] = slaveAddr ∧ s.rx[1] = fcRead ∧ s.rx[2] = readByteCount := by
  simp [readHeaderOk, s.rxByte_eq 0 (by decide), s.rxByte_eq 1 (by decide), s.rxByte_eq 2 (by decide), and_assoc]

/-- The CRC check, on the received frame as its leading bytes and its two trailing ones (R141(c)). -/
theorem trailingCrcOk_iff (s : State) (p : List Byte) (lo hi : Byte) (h : s.received = p ++ [lo, hi]) :
    trailingCrcOk s = true ↔ crc16 p = expectedCrc lo hi := by
  obtain ⟨-, h1, h2, h3⟩ := s.received_eq_append p lo hi h
  rw [trailingCrcOk, h1, h2, h3, beq_iff_eq]

theorem payload_eq (s : State) : payload s = payloadWord s.rx[3] s.rx[4] s.rx[5] s.rx[6] := by
  rw [payload, s.rxByte_eq 3 (by decide), s.rxByte_eq 4 (by decide), s.rxByte_eq 5 (by decide),
    s.rxByte_eq 6 (by decide)]

end Sys2Proof.Machine
end

