-- ==== Sys2Proof/Laws/Bus.lean ====
section
/-! SUPPORT. The register map as facts (spec/10_state.md rule R35), and what one step can do, said once. -/

namespace Sys2Proof.Machine

/-- Every register is found at its offset. -/
theorem accessedReg_offset (r : Reg) : accessedReg r.offset 4 = some r := by
  cases r with
  | txBuf k => fin_cases k <;> rfl
  | rxBuf k => fin_cases k <;> rfl
  | reserved k => fin_cases k <;> rfl
  | _ => rfl

/-- A supported access is 4 bytes wide, at its register's offset (R51). -/
theorem accessedReg_eq_some {offset width : Nat} {r : Reg} (h : accessedReg offset width = some r) :
    width = 4 ∧ offset = r.offset := by
  unfold accessedReg at h
  split at h
  · rename_i hw
    have hr : (r.offset == offset) = true := List.find?_some (p := fun r : Reg => r.offset == offset) h
    exact ⟨hw, (beq_iff_eq.1 hr).symm⟩
  · cases h

/-- Exactly the 4-byte accesses at the multiples of 4 are supported (R51, R52). -/
theorem accessedReg_eq_none_iff {offset width : Nat} (h : offset < windowSize) :
    accessedReg offset width = none ↔ width ≠ 4 ∨ offset % 4 ≠ 0 := by
  unfold accessedReg
  by_cases hw : width = 4
  · rw [if_pos hw]
    simp only [hw, ne_eq, not_true_eq_false, false_or]
    unfold windowSize at h
    interval_cases offset <;> decide
  · simp [hw]

theorem windowRegs_complete (r : Reg) : r ∈ windowRegs := by
  cases r with
  | txBuf k => fin_cases k <;> decide
  | rxBuf k => fin_cases k <;> decide
  | reserved k => fin_cases k <;> decide
  | _ => decide

theorem Reg.offset_lt (r : Reg) : r.offset < windowSize := by
  cases r <;> simp only [Reg.offset, windowSize] <;> omega

/-! ## One step, by the event it takes -/

theorem step_of_read {s : State} {offset width : Nat} {rest : List HostEvent}
    (h : s.pending = .read offset width :: rest) : step s = busRead offset width (s.setPending rest) := by
  simp only [step, nextEvent, h, hostEvent]

theorem step_of_write {s : State} {offset width : Nat} {v : Word} {rest : List HostEvent}
    (h : s.pending = .write offset width v :: rest) : step s = busWrite offset width v (s.setPending rest) := by
  simp only [step, nextEvent, h, hostEvent]

theorem step_of_resetLine {s : State} {a : Bool} {rest : List HostEvent}
    (h : s.pending = .resetLine a :: rest) : step s = .next ((s.setPending rest).driveReset a) := by
  simp only [step, nextEvent, h, hostEvent]

/-- What a read can do (R51, R52, R56). -/
theorem busRead_next {offset width : Nat} {s t : State} (h : busRead offset width s = .next t) :
    offset < windowSize ∧ s.inReset = false ∧ ∃ r, t = s.setReply r := by
  unfold busRead at h
  split at h
  · cases h
  · rename_i ho
    split at h
    · cases h
    · rename_i hr
      refine ⟨by omega, by simpa using hr, ?_⟩
      split at h <;> cases h <;> exact ⟨_, rfl⟩

/-- What a write can do (R32 to R36, R52, R56): run a command, set `RXLEN`, set four bytes of `RX`, or nothing. -/
theorem busWrite_next {offset width : Nat} {v : Word} {s t : State} (h : busWrite offset width v s = .next t) :
    offset < windowSize ∧ s.inReset = false ∧
      ((offset = 0x00 ∧ width = 4 ∧ exec (decode v) s = .next t) ∨
       (offset = 0x1C ∧ width = 4 ∧ t = s.writeRxLen v) ∨
       (∃ k : Fin 4, offset = 0x20 + 4 * k.val ∧ width = 4 ∧ t = s.setRxWord k v) ∨
       t = s) := by
  unfold busWrite at h
  split at h
  · cases h
  · rename_i ho
    split at h
    · cases h
    · rename_i hr
      refine ⟨by omega, by simpa using hr, ?_⟩
      split at h
      · rename_i r hreg
        obtain ⟨hw, hoff⟩ := accessedReg_eq_some hreg
        cases r with
        | cmd => exact .inl ⟨hoff, hw, h⟩
        | rxLen => cases h; exact .inr (.inl ⟨hoff, hw, rfl⟩)
        | rxBuf k => cases h; exact .inr (.inr (.inl ⟨k, hoff, hw, rfl⟩))
        | _ => cases h; exact .inr (.inr (.inr rfl))
      · cases h
        exact .inr (.inr (.inr rfl))

/-- What a step can do, when it goes on. -/
theorem step_next_cases {s t : State} (h : step s = .next t) :
    (s.pending = [] ∧ t = s) ∨
    (∃ offset width rest, s.pending = .read offset width :: rest ∧ offset < windowSize ∧ s.inReset = false ∧
      ∃ r, t = (s.setPending rest).setReply r) ∨
    (∃ w rest, s.pending = .write 0x00 4 w :: rest ∧ s.inReset = false ∧ exec (decode w) (s.setPending rest) = .next t) ∨
    (∃ v rest, s.pending = .write 0x1C 4 v :: rest ∧ s.inReset = false ∧ t = (s.setPending rest).writeRxLen v) ∨
    (∃ k : Fin 4, ∃ v rest, s.pending = .write (0x20 + 4 * k.val) 4 v :: rest ∧ s.inReset = false ∧
      t = (s.setPending rest).setRxWord k v) ∨
    (∃ offset width v rest, s.pending = .write offset width v :: rest ∧ offset < windowSize ∧ s.inReset = false ∧
      t = s.setPending rest) ∨
    (∃ a rest, s.pending = .resetLine a :: rest ∧ t = (s.setPending rest).driveReset a) := by
  cases hp : s.pending with
  | nil =>
    simp only [step, nextEvent, hp] at h
    cases h
    exact .inl ⟨rfl, rfl⟩
  | cons e rest =>
    cases e with
    | read offset width =>
      rw [step_of_read hp] at h
      obtain ⟨ho, hr, r, ht⟩ := busRead_next h
      exact .inr (.inl ⟨offset, width, rest, rfl, ho, hr, r, ht⟩)
    | write offset width v =>
      rw [step_of_write hp] at h
      obtain ⟨ho, hr, hc⟩ := busWrite_next h
      rcases hc with ⟨rfl, rfl, hx⟩ | ⟨rfl, rfl, hx⟩ | ⟨k, rfl, rfl, hx⟩ | hx
      · exact .inr (.inr (.inl ⟨v, rest, rfl, hr, hx⟩))
      · exact .inr (.inr (.inr (.inl ⟨v, rest, rfl, hr, hx⟩)))
      · exact .inr (.inr (.inr (.inr (.inl ⟨k, v, rest, rfl, hr, hx⟩))))
      · exact .inr (.inr (.inr (.inr (.inr (.inl ⟨offset, width, v, rest, rfl, ho, hr, hx⟩)))))
    | resetLine a =>
      rw [step_of_resetLine hp] at h
      cases h
      exact .inr (.inr (.inr (.inr (.inr (.inr ⟨a, rest, rfl, rfl⟩)))))

end Sys2Proof.Machine
end

