-- ==== Sys2Proof/Laws/Crc.lean ====
section
/-! SUPPORT. The CRC function (spec/40_crc.md rules R101, R102): one iteration, one byte and a whole sequence lose no
information about the accumulator, and a byte that equals the accumulator's low byte shifts it out. -/

namespace Sys2Proof.Machine

/-- The polynomial's bit 15 makes the bit shifted out visible at bit 15. -/
theorem crcShift_getLsbD_15 (c : Half) : (crcShift c).getLsbD 15 = c.getLsbD 0 := by
  unfold crcShift
  by_cases h : c.getLsbD 0 = true
  · rw [if_pos h, h, BitVec.getLsbD_xor, BitVec.getLsbD_ushiftRight, BitVec.getLsbD_of_ge c 16 (by omega)]
    rfl
  · rw [if_neg h, BitVec.getLsbD_ushiftRight, BitVec.getLsbD_of_ge c 16 (by omega)]
    simpa using h

theorem crcShift_injective : Function.Injective crcShift := by
  intro c d h
  have h0 : c.getLsbD 0 = d.getLsbD 0 := by rw [← crcShift_getLsbD_15, ← crcShift_getLsbD_15, h]
  have hs : c >>> 1 = d >>> 1 := by
    unfold crcShift at h
    rw [← h0] at h
    split at h
    · exact BitVec.xor_left_inj _ |>.1 h
    · exact h
  apply BitVec.eq_of_getLsbD_eq
  intro i hi
  cases i with
  | zero => exact h0
  | succ n =>
    have := congrArg (fun x => BitVec.getLsbD x n) hs
    simpa [BitVec.getLsbD_ushiftRight, Nat.add_comm] using this

theorem crcShifts_injective (n : Nat) : Function.Injective (crcShifts n) := by
  induction n with
  | zero => exact fun _ _ h => h
  | succ n ih => exact fun _ _ h => crcShift_injective (ih h)

/-- Different accumulators stay different through the same byte. -/
theorem crcStep_left_injective (b : Byte) : Function.Injective (fun c => crcStep c b) := by
  intro c d h
  exact BitVec.xor_left_inj _ |>.1 (crcShifts_injective 8 h)

/-- Different bytes give different accumulators. -/
theorem crcStep_right_injective (c : Half) : Function.Injective (crcStep c) := by
  intro a b h
  have h1 := BitVec.xor_right_inj _ |>.1 (crcShifts_injective 8 h)
  have h2 := congrArg (fun x => BitVec.setWidth 8 x) h1
  simpa using h2

/-- Different accumulators stay different through the same bytes. -/
theorem foldl_crcStep_injective (bytes : List Byte) : Function.Injective (fun c => bytes.foldl crcStep c) := by
  induction bytes with
  | nil => exact fun _ _ h => h
  | cons b rest ih => exact fun _ _ h => crcStep_left_injective b (ih h)

/-- An accumulator with a clear low byte is shifted down: nothing leaves at bit 0 that could bring the polynomial in. -/
theorem crcShifts_of_low_clear (n : Nat) (c : Half) (h : ∀ i < n, c.getLsbD i = false) : crcShifts n c = c >>> n := by
  induction n generalizing c with
  | zero => simp [crcShifts]
  | succ n ih =>
    have h0 : crcShift c = c >>> 1 := by
      unfold crcShift
      rw [h 0 (by omega)]
      rfl
    rw [crcShifts, h0, ih _ (fun i hi => by rw [BitVec.getLsbD_ushiftRight]; exact h _ (by omega)),
      ← BitVec.shiftRight_add, Nat.add_comm]

/-- A byte equal to the accumulator's low byte leaves its high byte (R145, R108). -/
theorem crcStep_own_low_byte (c : Half) : crcStep c (halfLo c) = c >>> 8 := by
  unfold crcStep
  rw [crcShifts_of_low_clear]
  · apply BitVec.eq_of_getLsbD_eq
    intro i hi
    simp [BitVec.getLsbD_ushiftRight, BitVec.getLsbD_xor, halfLo]
  · intro i hi
    simp [halfLo, hi, show i < 16 by omega]

end Sys2Proof.Machine
end

