-- ==== Sys2Proof/Laws/Decode.lean ====
section
/-! SUPPORT. Facts about command words: the fields of a concatenation, which words each shape of mask admits, and the
decoder as a case distinction on the word's value (`decode_eq`), which later proofs cite instead of the table. -/

namespace Sys2Proof

/-- No two rows of the opcode map share a word: where both masks look, the patterns differ (R70). -/
theorem opTable_rows_differ :
    opTable.Pairwise (fun a b => a.mask &&& b.mask &&& (a.pattern ^^^ b.pattern) ≠ 0) := by decide

/-- A row's pattern has no 1 outside its mask. -/
theorem opTable_pattern_in_mask : ∀ r ∈ opTable, r.pattern &&& r.mask = r.pattern := by decide

theorem wordOp_append (a : BitVec 24) (op : Byte) : wordOp (a ++ op) = op := by
  apply BitVec.eq_of_getLsbD_eq
  intro i hi
  have h : BitVec.getLsbD (w := 24 + 8) (a ++ op) i = op.getLsbD i := by
    rw [BitVec.getLsbD_append]; simp [hi]
  simpa [wordOp, hi] using h

theorem wordArg_append (a : BitVec 24) (op : Byte) : wordArg (a ++ op) = a := by
  apply BitVec.eq_of_getLsbD_eq
  intro i hi
  have h : BitVec.getLsbD (w := 24 + 8) (a ++ op) (8 + i) = a.getLsbD i := by
    rw [BitVec.getLsbD_append]; simp
  simpa [wordArg, hi] using h

/-- A word is its ARG and its OP. -/
theorem wordArg_append_wordOp (w : Word) : (wordArg w ++ wordOp w : Word) = w := by
  apply BitVec.eq_of_getLsbD_eq
  intro i hi
  have h : BitVec.getLsbD (w := 24 + 8) (wordArg w ++ wordOp w) i = w.getLsbD i := by
    rw [BitVec.getLsbD_append]
    by_cases h8 : i < 8
    · simp [wordOp, h8]
    · simp [wordArg, h8, show i - 8 < 24 by omega, show 8 + (i - 8) = i by omega]
  exact h

theorem wordOp_toNat (w : Word) : (wordOp w).toNat = w.toNat % 256 := by
  simp [wordOp, BitVec.extractLsb'_toNat]

theorem wordLo_toNat (w : Word) : (wordLo w).toNat = w.toNat / 256 % 256 := by
  simp [wordLo, BitVec.extractLsb'_toNat, Nat.shiftRight_eq_div_pow]

theorem wordHi_toNat (w : Word) : (wordHi w).toNat = w.toNat / 65536 % 256 := by
  simp [wordHi, BitVec.extractLsb'_toNat, Nat.shiftRight_eq_div_pow]

theorem wordArg_toNat (w : Word) : (wordArg w).toNat = w.toNat / 256 := by
  simp [wordArg, BitVec.extractLsb'_toNat, Nat.shiftRight_eq_div_pow]
  omega

/-! ## The four masks of the layouts, as facts about the word's value (R71) -/

theorem mask_all_iff (w p : Word) : w &&& 0xFFFFFFFF = p ↔ w = p := by
  rw [show (0xFFFFFFFF : Word) = BitVec.allOnes 32 from rfl, BitVec.and_allOnes]

theorem and_low_toNat (w : Word) : (w &&& 0xFF#32).toNat = w.toNat % 256 := by
  rw [BitVec.toNat_and]
  exact Nat.and_two_pow_sub_one_eq_mod w.toNat 8

/-- Layout R keeps the OP alone. -/
theorem mask_R_iff (w p : Word) : w &&& 0x000000FF = p ↔ w.toNat % 256 = p.toNat := by
  rw [← BitVec.toNat_inj]
  exact Eq.congr (and_low_toNat w) rfl

theorem and_split (w : Word) (k : Nat) (hk : 8 ≤ k) (hk' : k ≤ 32) (m : Word)
    (hm : m = BitVec.ofNat 32 (0xFF + (2 ^ 32 - 2 ^ k))) :
    (w &&& m).toNat = w.toNat % 256 + w.toNat / 2 ^ k * 2 ^ k := by
  subst hm
  have hlt := w.isLt
  have h1 : (w &&& BitVec.ofNat 32 (0xFF + (2 ^ 32 - 2 ^ k))) =
      (w &&& 0xFF#32) ||| ((w >>> k) <<< k) := by
    apply BitVec.eq_of_getLsbD_eq
    intro i hi
    have hb : (BitVec.ofNat 32 (0xFF + (2 ^ 32 - 2 ^ k))).getLsbD i = (decide (i < 8) || decide (k ≤ i)) := by
      interval_cases k <;> interval_cases i <;> rfl
    have hc : (0xFF#32).getLsbD i = decide (i < 8) := by interval_cases i <;> rfl
    rw [BitVec.getLsbD_and, hb, BitVec.getLsbD_or, BitVec.getLsbD_and, hc, BitVec.getLsbD_shiftLeft,
      BitVec.getLsbD_ushiftRight]
    by_cases h8 : i < 8
    · simp [h8, show i < k by omega]
    · by_cases hki : k ≤ i
      · simp [h8, hki, hi, show ¬ i < k by omega]
      · simp [h8, hki, show i < k by omega]
  rw [h1, BitVec.toNat_or, and_low_toNat, BitVec.toNat_shiftLeft, BitVec.toNat_ushiftRight]
  have h2 : (w.toNat >>> k) <<< k % 2 ^ 32 = w.toNat / 2 ^ k * 2 ^ k := by
    rw [Nat.shiftRight_eq_div_pow, Nat.shiftLeft_eq]
    exact Nat.mod_eq_of_lt (Nat.lt_of_le_of_lt (Nat.div_mul_le_self _ _) hlt)
  rw [h2, Nat.or_comm, Nat.mul_comm, ← Nat.two_pow_add_eq_or_of_lt, Nat.add_comm]
  have : 2 ^ 8 ≤ 2 ^ k := Nat.pow_le_pow_right (by omega) hk
  omega

/-- Layout B keeps the OP and bits [31:16]. -/
theorem mask_B_iff (w p : Word) (hp : p.toNat < 256) :
    w &&& 0xFFFF00FF = p ↔ w.toNat % 256 = p.toNat ∧ w.toNat / 65536 = 0 := by
  have h := and_split w 16 (by omega) (by omega) 0xFFFF00FF rfl
  rw [← BitVec.toNat_inj, h]
  omega

/-- Layout H keeps the OP and bits [31:24]. -/
theorem mask_H_iff (w p : Word) (hp : p.toNat < 256) :
    w &&& 0xFF0000FF = p ↔ w.toNat % 256 = p.toNat ∧ w.toNat / 16777216 = 0 := by
  have h := and_split w 24 (by omega) (by omega) 0xFF0000FF rfl
  rw [← BitVec.toNat_inj, h]
  omega

/-! ## The rows' matches, as conditions on the word's value -/

theorem hits_N (w p : Word) : (w &&& 0xFFFFFFFF == p) = decide (w.toNat = p.toNat) := by
  rw [Bool.eq_iff_iff, beq_iff_eq, decide_eq_true_eq, mask_all_iff, BitVec.toNat_inj]

theorem hits_B (w : Word) :
    (w &&& 0xFFFF00FF == 0x00000002) = decide (w.toNat % 256 = 0x02 ∧ w.toNat / 65536 = 0) := by
  rw [Bool.eq_iff_iff, beq_iff_eq, decide_eq_true_eq]
  exact mask_B_iff w 0x02 (by decide)

theorem hits_H (w : Word) :
    (w &&& 0xFF0000FF == 0x00000003) = decide (w.toNat % 256 = 0x03 ∧ w.toNat / 16777216 = 0) := by
  rw [Bool.eq_iff_iff, beq_iff_eq, decide_eq_true_eq]
  exact mask_H_iff w 0x03 (by decide)

theorem hits_R (w : Word) : (w &&& 0x000000FF == 0x00000012) = decide (w.toNat % 256 = 0x12) := by
  rw [Bool.eq_iff_iff, beq_iff_eq, decide_eq_true_eq]
  exact mask_R_iff w 0x12

/-- The decoder on the value of the word. -/
theorem decode_eq (w : Word) : decode w =
    if w.toNat = 0x01 then .crcInit
    else if w.toNat % 256 = 0x02 ∧ w.toNat / 65536 = 0 then .crcByte (wordLo w)
    else if w.toNat % 256 = 0x03 ∧ w.toNat / 16777216 = 0 then .crcCheck (wordLo w) (wordHi w)
    else if w.toNat = 0x04 then .crcRx
    else if w.toNat = 0x10 then .encRead
    else if w.toNat = 0x11 then .encZero
    else if w.toNat % 256 = 0x12 then .encBaud (wordArg w)
    else if w.toNat = 0x20 then .decRead
    else if w.toNat = 0x21 then .chkEcho
    else if w.toNat = 0x22 then .chkHdr
    else .badCommand w := by
  have n1 : (w &&& 0xFFFFFFFF == 0x00000001) = decide (w.toNat = 0x01) := hits_N w 0x01
  have n4 : (w &&& 0xFFFFFFFF == 0x00000004) = decide (w.toNat = 0x04) := hits_N w 0x04
  have n5 : (w &&& 0xFFFFFFFF == 0x00000010) = decide (w.toNat = 0x10) := hits_N w 0x10
  have n6 : (w &&& 0xFFFFFFFF == 0x00000011) = decide (w.toNat = 0x11) := hits_N w 0x11
  have n8 : (w &&& 0xFFFFFFFF == 0x00000020) = decide (w.toNat = 0x20) := hits_N w 0x20
  have n9 : (w &&& 0xFFFFFFFF == 0x00000021) = decide (w.toNat = 0x21) := hits_N w 0x21
  have n10 : (w &&& 0xFFFFFFFF == 0x00000022) = decide (w.toNat = 0x22) := hits_N w 0x22
  simp only [decode, opTable, List.find?, OpRow.hits, n1, hits_B, hits_H, n4, n5, n6, hits_R, n8, n9, n10]
  split_ifs with h1 h2 h3 h4 h5 h6 h7 h8 h9 h10
  · simp only [decide_eq_true h1]
  · simp only [decide_eq_false h1, decide_eq_true h2]
  · simp only [decide_eq_false h1, decide_eq_false h2, decide_eq_true h3]
  · simp only [decide_eq_false h1, decide_eq_false h2, decide_eq_false h3, decide_eq_true h4]
  all_goals simp only [decide_eq_false h1, decide_eq_false h2, decide_eq_false h3, decide_eq_false h4]
  · simp only [decide_eq_true h5]
  all_goals simp only [decide_eq_false h5]
  · simp only [decide_eq_true h6]
  all_goals simp only [decide_eq_false h6]
  · simp only [decide_eq_true h7]
  all_goals simp only [decide_eq_false h7]
  · simp only [decide_eq_true h8]
  all_goals simp only [decide_eq_false h8]
  · simp only [decide_eq_true h9]
  all_goals simp only [decide_eq_false h9]
  · simp only [decide_eq_true h10]
  · simp only [decide_eq_false h10]

/-- The value of an encoded word whose fields are an ARG and an OP. -/
theorem append_toNat (a : BitVec 24) (op : Byte) :
    BitVec.toNat (w := 32) (a ++ op) = a.toNat * 256 + op.toNat := by
  have h : BitVec.toNat (w := 24 + 8) (a ++ op) = a.toNat * 256 + op.toNat := by
    rw [BitVec.toNat_append, Nat.shiftLeft_eq, Nat.mul_comm, ← Nat.two_pow_add_eq_or_of_lt op.isLt]
  exact h

/-! ## Illegal words -/

/-- The OP values of R73. -/
theorem opAssigned_iff (w : Word) : opAssigned w = true ↔
    w.toNat % 256 = 0x01 ∨ w.toNat % 256 = 0x02 ∨ w.toNat % 256 = 0x03 ∨ w.toNat % 256 = 0x04 ∨
    w.toNat % 256 = 0x10 ∨ w.toNat % 256 = 0x11 ∨ w.toNat % 256 = 0x12 ∨ w.toNat % 256 = 0x20 ∨
    w.toNat % 256 = 0x21 ∨ w.toNat % 256 = 0x22 := by
  rw [opAssigned]
  generalize w.toNat % 256 = m
  rw [List.contains_iff_mem]
  simp only [List.mem_cons, List.not_mem_nil, or_false]

/-- The reserved fields of R71. -/
theorem reservedBitsClear_iff (w : Word) : reservedBitsClear w = true ↔
    (w.toNat % 256 = 0x02 ∧ w.toNat / 65536 = 0) ∨ (w.toNat % 256 = 0x03 ∧ w.toNat / 16777216 = 0) ∨
    w.toNat % 256 = 0x12 ∨
    (w.toNat % 256 ≠ 0x02 ∧ w.toNat % 256 ≠ 0x03 ∧ w.toNat % 256 ≠ 0x12 ∧ w.toNat / 256 = 0) := by
  rw [reservedBitsClear]
  generalize w.toNat = n
  split_ifs with h1 h2 h3
  · rw [beq_iff_eq]; norm_num only; omega
  · rw [beq_iff_eq]; norm_num only; omega
  · simp only [h3]; norm_num
  · rw [beq_iff_eq]; norm_num only; omega

/-- R74, on the value of the word. -/
theorem illegalWord_iff (w : Word) : illegalWord w = true ↔
    ¬ (w.toNat = 0x01 ∨ (w.toNat % 256 = 0x02 ∧ w.toNat / 65536 = 0) ∨
      (w.toNat % 256 = 0x03 ∧ w.toNat / 16777216 = 0) ∨ w.toNat = 0x04 ∨ w.toNat = 0x10 ∨ w.toNat = 0x11 ∨ w.toNat % 256 = 0x12 ∨ w.toNat = 0x20 ∨ w.toNat = 0x21 ∨
      w.toNat = 0x22) := by
  have h1 := opAssigned_iff w
  have h2 := reservedBitsClear_iff w
  rw [illegalWord, Bool.or_eq_true, Bool.not_eq_true', Bool.not_eq_true', ← Bool.not_eq_true, ← Bool.not_eq_true, h1, h2]
  generalize w.toNat = n
  omega

/-- What the decoder can answer, with the condition on the word for each command (R70). -/
theorem decode_cases (w : Word) :
    (w.toNat = 0x01 ∧ decode w = .crcInit) ∨
    (w.toNat % 256 = 0x02 ∧ w.toNat / 65536 = 0 ∧ decode w = .crcByte (wordLo w)) ∨
    (w.toNat % 256 = 0x03 ∧ w.toNat / 16777216 = 0 ∧ decode w = .crcCheck (wordLo w) (wordHi w)) ∨
    (w.toNat = 0x04 ∧ decode w = .crcRx) ∨
    (w.toNat = 0x10 ∧ decode w = .encRead) ∨
    (w.toNat = 0x11 ∧ decode w = .encZero) ∨
    (w.toNat % 256 = 0x12 ∧ decode w = .encBaud (wordArg w)) ∨
    (w.toNat = 0x20 ∧ decode w = .decRead) ∨
    (w.toNat = 0x21 ∧ decode w = .chkEcho) ∨
    (w.toNat = 0x22 ∧ decode w = .chkHdr) ∨
    (illegalWord w = true ∧ decode w = .badCommand w) := by
  rw [decode_eq, illegalWord_iff]
  by_cases h1 : w.toNat = 0x01
  · exact .inl ⟨h1, if_pos h1⟩
  rw [if_neg h1]
  by_cases h2 : w.toNat % 256 = 0x02 ∧ w.toNat / 65536 = 0
  · exact .inr (.inl ⟨h2.1, h2.2, if_pos h2⟩)
  rw [if_neg h2]
  by_cases h3 : w.toNat % 256 = 0x03 ∧ w.toNat / 16777216 = 0
  · exact .inr (.inr (.inl ⟨h3.1, h3.2, if_pos h3⟩))
  rw [if_neg h3]
  by_cases h4 : w.toNat = 0x04
  · exact .inr (.inr (.inr (.inl ⟨h4, if_pos h4⟩)))
  rw [if_neg h4]
  by_cases h5 : w.toNat = 0x10
  · exact .inr (.inr (.inr (.inr (.inl ⟨h5, if_pos h5⟩))))
  rw [if_neg h5]
  by_cases h6 : w.toNat = 0x11
  · exact .inr (.inr (.inr (.inr (.inr (.inl ⟨h6, if_pos h6⟩)))))
  rw [if_neg h6]
  by_cases h7 : w.toNat % 256 = 0x12
  · exact .inr (.inr (.inr (.inr (.inr (.inr (.inl ⟨h7, if_pos h7⟩))))))
  rw [if_neg h7]
  by_cases h8 : w.toNat = 0x20
  · exact .inr (.inr (.inr (.inr (.inr (.inr (.inr (.inl ⟨h8, if_pos h8⟩)))))))
  rw [if_neg h8]
  by_cases h9 : w.toNat = 0x21
  · exact .inr (.inr (.inr (.inr (.inr (.inr (.inr (.inr (.inl ⟨h9, if_pos h9⟩))))))))
  rw [if_neg h9]
  by_cases h10 : w.toNat = 0x22
  · exact .inr (.inr (.inr (.inr (.inr (.inr (.inr (.inr (.inr (.inl ⟨h10, if_pos h10⟩)))))))))
  rw [if_neg h10]
  exact .inr (.inr (.inr (.inr (.inr (.inr (.inr (.inr (.inr (.inr ⟨by tauto, rfl⟩)))))))))

end Sys2Proof
end

