-- ==== Sys2Proof/Laws/PerInstr.lean ====
section
/-! SUPPORT. Facts about every command as syntax, one lemma per constructor of `Instr`. -/

namespace Sys2Proof.Laws.OpField

/-- The encoding of a command carries its OP in bits [7:0] (spec/30_encoding.md rules R70, R71). -/
def Statement (i : Instr) : Prop := wordOp (encode i) = i.op

theorem crcInit : Statement .crcInit := wordOp_append _ _

theorem crcByte (data : Byte) : Statement (.crcByte data) := wordOp_append _ _

theorem crcCheck (lo hi : Byte) : Statement (.crcCheck lo hi) := wordOp_append _ _

theorem crcRx : Statement .crcRx := wordOp_append _ _

theorem encRead : Statement .encRead := wordOp_append _ _

theorem encZero : Statement .encZero := wordOp_append _ _

theorem encBaud (rate : BitVec 24) : Statement (.encBaud rate) := wordOp_append _ _

theorem decRead : Statement .decRead := wordOp_append _ _

theorem chkEcho : Statement .chkEcho := wordOp_append _ _

theorem chkHdr : Statement .chkHdr := wordOp_append _ _

theorem badCommand (w : Word) : Statement (.badCommand w) := rfl

end Sys2Proof.Laws.OpField
end

