-- ==== Sys2Proof/Laws/Run.lean ====
section
/-! SUPPORT. Runs of several steps, peeled one step at a time. -/

namespace Sys2Proof.Machine

/-- A run goes on from the state its first step gives. -/
theorem run_succ_of_next (M : Host.Core) (n : Nat) {s t : M.State} (h : M.step s = .next t) :
    M.run (n + 1) s = M.run n t := by
  simp only [Host.Core.run, h]

/-- A run that reaches a state had a first step that went on. -/
theorem run_succ_eq_next (M : Host.Core) (n : Nat) {s t : M.State} (h : M.run (n + 1) s = .next t) :
    ∃ u, M.step s = .next u ∧ M.run n u = .next t := by
  simp only [Host.Core.run] at h
  split at h
  · rename_i u hu
    exact ⟨u, hu, h⟩
  · cases h
  · cases h

/-- A run is a shorter run and then the rest. -/
theorem run_add_of_next (M : Host.Core) (n m : Nat) :
    ∀ s t : M.State, M.run n s = .next t → M.run (n + m) s = M.run m t := by
  induction n with
  | zero =>
    intro s t h
    cases h
    rw [Nat.zero_add]
  | succ n ih =>
    intro s t h
    obtain ⟨u, hu, hr⟩ := run_succ_eq_next M n h
    rw [Nat.succ_add, run_succ_of_next M _ hu]
    exact ih u t hr

/-- `run_succ_of_next` for this machine. -/
theorem run_of_step {s t : State} (n : Nat) (h : step s = .next t) : core.run (n + 1) s = core.run n t :=
  run_succ_of_next core n h

/-- A run of one step is that step. -/
theorem run_one {s t : State} (h : step s = .next t) : core.run 1 s = .next t := run_of_step 0 h

end Sys2Proof.Machine
end

