-- ==== Sys2Proof/Tests/Slice0.lean ====
section
/-! SUPPORT. Tests: the well-formedness check, decoding of words written out from the spec's layouts, single steps with
the values of spec/95_test_vectors.md, and for every statement with hypotheses a witness that meets them. -/

namespace Sys2Proof.Tests

open Sys2Proof Sys2Proof.Machine

set_option Elab.async false

/-! ## Small states -/

/-- Sixteen bytes: the given ones, then 0x00. -/
def buffer (bytes : List Byte) : Vector Byte 16 := Vector.ofFn (fun i => bytes.getD i.val 0x00)

/-- A block whose received frame is `bytes`, with `RAW` = 0x11111111 and `RAW_VALID` = 1 (the "before" of
spec/95_test_vectors.md section 2.4) and the other registers as after reset. -/
def block (bytes : List Byte) : State :=
  ((((State.reset.setTx (Vector.replicate 8 0x00)).setRx (buffer bytes)).setRxLen (Fin.ofNat 17 bytes.length)).setRaw
    0x11111111).setRawValid true

/-- The state one step after the command word `w` is placed. -/
def after (w : Nat) (s : State) : Option State :=
  match step (s.withFetchWord 32 w) with
  | .next t => some t
  | _ => none

/-- `STATUS`, `CRC` and `RAW` after a command word. -/
def seen (w : Nat) (s : State) : Option (Word × Half × Word) :=
  (after w s).map (fun t => (t.readReg .status, t.crc, t.raw))

/-- What `exec` gives, when it goes on. -/
def run1 (i : Instr) (s : State) : Option State :=
  match exec i s with
  | .next t => some t
  | _ => none

/-! ## Well-formedness: the one check refuses what is no illegal word (R74) -/

theorem test_badCommand_of_legal_words_refused :
    (Instr.badCommand 0x00000001).wellFormed = false ∧ (Instr.badCommand 0x0000FF02).wellFormed = false ∧
    (Instr.badCommand 0x00FFFF03).wellFormed = false ∧ (Instr.badCommand 0xFFFFFF12).wellFormed = false := by decide

theorem test_badCommand_of_illegal_words_accepted :
    (Instr.badCommand 0x00000000).wellFormed = true ∧ (Instr.badCommand 0x00000101).wellFormed = true ∧
    (Instr.badCommand 0x00010002).wellFormed = true ∧ (Instr.badCommand 0x01000003).wellFormed = true ∧
    (Instr.badCommand 0x80000022).wellFormed = true ∧ (Instr.badCommand 0x00000013).wellFormed = true := by decide

/-! ## Decoding: one word per row of spec/opcode_table.json, its bits 31 to 0 as that table's encoding column has them -/

theorem test_decode_crcInit : decode 0b00000000000000000000000000000001 = .crcInit := by decide
theorem test_decode_crcByte : decode 0b00000000000000001010010100000010 = .crcByte 0xA5 := by decide
theorem test_decode_crcCheck : decode 0b00000000000001011100000000000011 = .crcCheck 0xC0 0x05 := by decide
theorem test_decode_crcRx : decode 0b00000000000000000000000000000100 = .crcRx := by decide
theorem test_decode_encRead : decode 0b00000000000000000000000000010000 = .encRead := by decide
theorem test_decode_encZero : decode 0b00000000000000000000000000010001 = .encZero := by decide
theorem test_decode_encBaud : decode 0b00000001110000100000000000010010 = .encBaud 115200 := by decide
theorem test_decode_decRead : decode 0b00000000000000000000000000100000 = .decRead := by decide
theorem test_decode_chkEcho : decode 0b00000000000000000000000000100001 = .chkEcho := by decide
theorem test_decode_chkHdr : decode 0b00000000000000000000000000100010 = .chkHdr := by decide
theorem test_decode_badCommand :
    decode 0b00000000000000000000000001000000 = .badCommand 0x40 ∧
    decode 0b10000000000000000000000000100000 = .badCommand 0x80000020 := by decide

theorem test_decodeTableWord :
    decodeTableWord 32 0x00258012 = some (.encBaud 9600) ∧ decodeTableWord 32 0x0005C003 = some (.crcCheck 0xC0 0x05) ∧
    decodeTableWord 32 0 = some (.badCommand 0) := by decide

/-! ## The CRC function (spec/95_test_vectors.md section 2.1) -/

theorem test_crcStep_table :
    crcStep 0xFFFF 0x80 = 0xE0BE ∧ crcStep 0x807E 0x04 = 0xE301 ∧ crcStep 0xE301 0x00 = 0xC022 ∧
    crcStep 0xC022 0x37 = 0xCF01 ∧ crcStep 0xCF01 0x00 = 0xC00E ∧ crcStep 0xC00E 0x02 = 0x05C0 ∧
    crcStep 0x1234 0x56 = 0xE993 ∧ crcStep 0xA001 0x01 = 0x00A0 := by decide +kernel

theorem test_crc16_table :
    crc16 [0x00] = 0x40BF ∧ crc16 [0xFF] = 0x00FF ∧ crc16 [0x01, 0x06, 0x00, 0x36, 0x00, 0x01] = 0x04A8 ∧
    crc16 [0x01, 0x04, 0x04, 0x00, 0x00, 0x30, 0x39] = 0x962F ∧
    crc16 [0x01, 0x04, 0x04, 0x00, 0x00, 0x30, 0x39, 0x2F] = 0x0096 ∧
    crc16 [0x01, 0x04, 0x04, 0x00, 0x00, 0x30, 0x39, 0x2F, 0x96] = 0x0000 := by decide +kernel

/-! ## One step per command (sections 2.2 to 2.7; `RAW_VALID` = 1 before, so bit 4 of `STATUS` is 1 unless cleared) -/

theorem test_crcInit : seen 0x00000001 ((block []).setCrc 0x1234) = some (0x00000111, 0xFFFF, 0x11111111) := by
  decide +kernel
theorem test_crcByte : seen 0x0000FF02 (block []) = some (0x00000211, 0x00FF, 0x11111111) := by decide +kernel
theorem test_crcCheck_equal :
    seen 0x0005C003 ((block []).setCrc 0x05C0) = some (0x00000311, 0x05C0, 0x11111111) := by decide +kernel
theorem test_crcCheck_swapped :
    seen 0x00C00503 ((block []).setCrc 0x05C0) = some (0x00000314, 0x05C0, 0x11111111) := by decide +kernel
theorem test_crcRx_whole_buffer :
    seen 0x00000004 (block [0x00, 0x01, 0x02, 0x03, 0x04, 0x05, 0x06, 0x07, 0x08, 0x09, 0x0A, 0x0B, 0x0C, 0x0D, 0x0E,
      0x0F]) = some (0x00000411, 0xE7B4, 0x11111111) := by decide +kernel
theorem test_crcRx_six_bytes :
    seen 0x00000004 (block [0x01, 0x06, 0x00, 0x36, 0x00, 0x01]) = some (0x00000411, 0x04A8, 0x11111111) := by
  decide +kernel

/-- `STATUS`, `TXLEN`, `TXBUF0` and `TXBUF1` after a command word. -/
def sent (w : Nat) : Option (Word × Word × Word × Word) :=
  (after w (block [])).map (fun t => (t.readReg .status, t.readReg .txLen, t.readReg (.txBuf 0), t.readReg (.txBuf 1)))

theorem test_encRead : sent 0x00000010 = some (0x00001011, 8, 0x37000401, 0x05C00200) := by decide +kernel
theorem test_encZero : sent 0x00000011 = some (0x00001111, 8, 0x36000601, 0x04A80100) := by decide +kernel
theorem test_encBaud_115200 : sent 0x01C20012 = some (0x00001211, 8, 0x31000601, 0xA8555211) := by decide +kernel
theorem test_encBaud_code_is_no_rate : sent 0x00009612 = some (0x00001215, 0, 0, 0) := by decide +kernel

theorem test_decRead_negative :
    seen 0x00000020 (block [0x01, 0x04, 0x04, 0xFF, 0xFF, 0xCF, 0xC7, 0xEF, 0xC2]) =
      some (0x00002011, 0xFFFF, 0xFFFFCFC7) := by decide +kernel
theorem test_decRead_eight_bytes :
    seen 0x00000020 (block [0x01, 0x04, 0x04, 0x00, 0x00, 0x30, 0x39, 0x2F]) =
      some (0x00002002, 0xFFFF, 0x11111111) := by decide +kernel
theorem test_chkEcho_seven_and_eight :
    seen 0x00000021 (block [0x01, 0x06, 0x00, 0x36, 0x00, 0x01, 0xA8]) = some (0x00002112, 0xFFFF, 0x11111111) ∧
    seen 0x00000021 (block [0x01, 0x06, 0x00, 0x36, 0x00, 0x01, 0xA8, 0x04]) =
      some (0x00002111, 0xFFFF, 0x11111111) := by decide +kernel
theorem test_chkHdr_two_bytes :
    seen 0x00000022 (block [0x01, 0x04]) = some (0x00002211, 0xFFFF, 0x11111111) ∧
    seen 0x00000022 (block [0x01, 0x84]) = some (0x00002213, 0xFFFF, 0x11111111) ∧
    seen 0x00000022 (block [0x01]) = some (0x00002212, 0xFFFF, 0x11111111) := by decide +kernel
theorem test_badCommand : seen 0x000000FF (block []) = some (0x0000FF16, 0xFFFF, 0x11111111) := by decide +kernel

/-- `RXBUF0` of the 9-byte response with value 12345 (section 2.4), and a 17-byte length ignored (program P5). -/
theorem test_bus_words :
    (block [0x01, 0x04, 0x04, 0x00, 0x00, 0x30, 0x39, 0x2F, 0x96]).readReg (.rxBuf 0) = 0x00040401 ∧
    (block [0x01, 0x04, 0x04, 0x00, 0x00, 0x30, 0x39, 0x2F, 0x96]).readReg (.rxBuf 1) = 0x2F393000 ∧
    ((block []).writeRxLen 0x11).rxLen = 0 ∧ ((block []).writeRxLen 0x10).rxLen = 16 := by decide +kernel

/-! ## Witnesses: for each statement with hypotheses, states and operands that meet them, at the edges of their ranges -/

/-- A meaning answers a next state with a property, by evaluation. -/
theorem answers (i : Instr) (s : State) (p : State → Prop) [DecidablePred p]
    (h : (run1 i s).any (fun t => decide (p t)) = true) : ∃ t, exec i s = .next t ∧ p t := by
  unfold run1 at h
  split at h
  · rename_i t ht
    exact ⟨t, ht, by simpa using h⟩
  · cases h

/-- A step answers a next state with a property, by evaluation. -/
theorem steps (s : State) (p : State → Prop) [DecidablePred p]
    (h : (match step s with | .next t => decide (p t) | _ => false) = true) : ∃ t, step s = .next t ∧ p t := by
  split at h
  · rename_i t ht
    exact ⟨t, ht, by simpa using h⟩
  · cases h

/-- The 9-byte response with value 12345 (spec/95_test_vectors.md section 2.4). -/
def response : List Byte := [0x01, 0x04, 0x04, 0x00, 0x00, 0x30, 0x39, 0x2F, 0x96]

/-- The 16-byte frame of section 2.4 whose CRC is over the first 14. -/
def longResponse : List Byte :=
  [0x01, 0x04, 0x04, 0x00, 0x00, 0x30, 0x39, 0x55, 0x55, 0x55, 0x55, 0x55, 0x55, 0x55, 0x38, 0x4B]

/-- A block with one event pending and its reset input released. -/
def withEvents (es : List HostEvent) : State := (block response).setPending es

theorem witness_DecodeOfEncode :
    (Instr.crcInit).wellFormed = true ∧ (Instr.crcByte 0xFF).wellFormed = true ∧
    (Instr.crcCheck 0xFF 0xFF).wellFormed = true ∧ (Instr.encBaud 0xFFFFFF).wellFormed = true ∧
    (Instr.badCommand 0xFFFFFFFF).wellFormed = true := by decide

theorem witness_OperandsAreUnsignedFields :
    decode 0x0000FF02 = .crcByte 0xFF ∧ decode 0x00FF0003 = .crcCheck 0x00 0xFF ∧
    decode 0xFFFFFF12 = .encBaud 0xFFFFFF ∧ decode 0x00000012 = .encBaud 0 := by decide

theorem witness_SingleBitChangesAreDetected :
    (crc16 [0x00] = (0x40 : Byte) ++ (0xBF : Byte) ∧ 7 < 8 ∧ 0 < [(0x00 : Byte)].length) ∧
    (∃ t, exec .decRead (block response) = .next t ∧ t.result = .ok) ∧ 0 < (block response).rxLen.val ∧
    2 < (block response).rxLen.val ∧ 3 < (block response).rxLen.val ∧ 8 < (block response).rxLen.val ∧
    (∃ t, exec .decRead (block longResponse) = .next t ∧ t.result = .ok) ∧ 15 < (block longResponse).rxLen.val :=
  ⟨by decide +kernel, answers _ _ (fun t => t.result = .ok) (by decide +kernel), by decide, by decide, by decide, by decide,
    answers _ _ (fun t => t.result = .ok) (by decide +kernel), by decide⟩

theorem witness_ZeroByteChangesEveryNonzeroCrc : (0x0001 : Half) ≠ 0x0000 ∧ (0xC001 : Half) ≠ 0x0000 := by decide

theorem witness_CrcInitSeedsAccumulator :
    ((0x00000101 : Word).toNat % 256 = 0x01 ∧ (0x00000101 : Word).toNat / 256 ≠ 0) ∧
    ((0x80000001 : Word).toNat % 256 = 0x01 ∧ (0x80000001 : Word).toNat / 256 ≠ 0) ∧
    (∃ t, exec .crcInit (block []) = .next t) ∧
    (((block []).setCrc 0x1234).setRawValid false).crc = 0x1234 ∧
    (((block []).setCrc 0x1234).setRawValid false).rawValid = false :=
  ⟨by decide, by decide, ⟨_, rfl⟩, rfl, rfl⟩

theorem witness_CrcByteAccumulatesOneByte :
    ((0x00010002 : Word).toNat % 256 = 0x02 ∧ (0x00010002 : Word).toNat / 65536 ≠ 0) ∧ (block []).crc = 0xFFFF := by
  decide

theorem witness_CrcCheckComparesAccumulator :
    ((0x01000003 : Word).toNat % 256 = 0x03 ∧ (0x01000003 : Word).toNat / 16777216 ≠ 0) ∧
    ∃ s : State, s.crc = crc16 [0x01, 0x04, 0x00, 0x37, 0x00, 0x02] :=
  ⟨by decide, (block []).setCrc (crc16 [0x01, 0x04, 0x00, 0x37, 0x00, 0x02]), State.setCrc_crc _ _⟩

theorem witness_CrcRxCoversReceivedFrame :
    (block []).rxLen = 0 ∧ (block longResponse).rxLen = 16 ∧
    ((block response).rx.toList.take (block response).rxLen.val =
        [0x01, 0x04, 0x04, 0x00, 0x00, 0x30, 0x39] ++ [0x2F, 0x96] ∧
      crc16 [0x01, 0x04, 0x04, 0x00, 0x00, 0x30, 0x39] = (0x96 : Byte) ++ (0x2F : Byte)) ∧
    (block [0x01, 0x06, 0x00, 0x36, 0x00, 0x01]).rx.toList.take (block [0x01, 0x06, 0x00, 0x36, 0x00, 0x01]).rxLen.val =
      [0x01, 0x06, 0x00, 0x36, 0x00, 0x01] := by decide +kernel

theorem witness_ByteStreamEqualsCrcRx :
    (withEvents [.write 0x00 4 0x00000001, .write 0x00 4 0x00000102]).inReset = false ∧
    (withEvents [.write 0x00 4 0x00000001, .write 0x00 4 0x00000102]).pending = .write 0x00 4 0x00000001 ::
      [(0x01 : Byte)].map (fun b => .write 0x00 4 (BitVec.ofNat 32 (b.toNat * 256 + 0x02))) ∧
    (block [0x01]).rx.toList.take (block [0x01]).rxLen.val = [0x01] ∧
    (∃ v, exec .crcRx (block [0x01]) = .next v ∧ v.crc = 0x807E) :=
  ⟨rfl, by decide, by decide +kernel, answers _ _ (fun v => v.crc = 0x807E) (by decide +kernel)⟩

theorem witness_EncReadBuildsReadRequest :
    ((0x00000110 : Word).toNat % 256 = 0x10 ∧ (0x00000110 : Word).toNat / 256 ≠ 0) ∧
    (∃ t, exec .encRead (block []) = .next t) := ⟨by decide, _, rfl⟩

theorem witness_EncZeroBuildsZeroRequest :
    ((0x00000111 : Word).toNat % 256 = 0x11 ∧ (0x00000111 : Word).toNat / 256 ≠ 0) ∧
    (∃ t, exec .encZero (block []) = .next t) := ⟨by decide, _, rfl⟩

theorem witness_EncBaudBuildsOrRejects :
    ((0 : BitVec 24).toNat ∉ [9600, 19200, 38400, 57600, 115200] ∧
      (9601 : BitVec 24).toNat ∉ [9600, 19200, 38400, 57600, 115200] ∧
      (0xFFFFFF : BitVec 24).toNat ∉ [9600, 19200, 38400, 57600, 115200]) ∧
    (9600#24, #v[0x01, 0x06, 0x00, 0x31, 0x00, 0x96, 0x58, 0x6B]) ∈
      [ (9600#24, (#v[0x01, 0x06, 0x00, 0x31, 0x00, 0x96, 0x58, 0x6B] : Vector Byte 8)) ] ∧
    (∃ t, exec (decode 0x00258012) (block []) = .next t ∧ t.result = .ok) :=
  ⟨by decide, by decide, answers _ _ (fun t => t.result = .ok) (by decide +kernel)⟩

theorem witness_EncoderDependsOnCommandAlone :
    (∃ t, exec .encRead (block []) = .next t ∧ t.result = .ok) ∧
    (∃ t, exec .encZero (block []) = .next t ∧ t.result = .ok) ∧
    (∃ t, exec (.encBaud 115200) (block []) = .next t ∧ t.result = .ok) :=
  ⟨answers _ _ (fun t => t.result = .ok) (by decide +kernel), answers _ _ (fun t => t.result = .ok) (by decide +kernel),
    answers _ _ (fun t => t.result = .ok) (by decide +kernel)⟩

/-- A frame with its header bytes right, as `DecReadValidatesInOrder` reads it. -/
def headerRight (s : State) : Prop := 9 ≤ s.rxLen.val ∧ s.rx[0] = 0x01 ∧ s.rx[1] = 0x04 ∧ s.rx[2] = 0x04

theorem witness_DecReadValidatesInOrder :
    (block [0x01, 0x04, 0x04, 0x00, 0x00, 0x30, 0x39, 0x2F]).rxLen.val < 9 ∧
    (9 ≤ (block [0x02, 0x04, 0x04, 0, 0, 0, 0, 0, 0]).rxLen.val ∧
      (block [0x02, 0x04, 0x04, 0, 0, 0, 0, 0, 0]).rx[0] ≠ 0x01) ∧
    (headerRight (block response) ∧ (block response).rx.toList.take (block response).rxLen.val =
      [0x01, 0x04, 0x04, 0x00, 0x00, 0x30, 0x39] ++ [0x2F, 0x96]) ∧
    (headerRight (block longResponse) ∧ (block longResponse).rx.toList.take (block longResponse).rxLen.val =
      longResponse.take 14 ++ [0x38, 0x4B]) ∧
    (headerRight (block [0x01, 0x04, 0x04, 0x00, 0x00, 0x30, 0x39, 0x96, 0x2F]) ∧
      crc16 [0x01, 0x04, 0x04, 0x00, 0x00, 0x30, 0x39] = (0x96 : Byte) ++ (0x2F : Byte) ∧ (0x96 : Byte) ≠ 0x2F) ∧
    ((0x00000120 : Word).toNat % 256 = 0x20 ∧ (0x00000120 : Word).toNat / 256 ≠ 0) ∧
    ((block []).setRaw 0x80000000).raw = 0x80000000 ∧ ((block []).setRaw 0xFFFFFFFF).raw = 0xFFFFFFFF := by
  unfold headerRight
  decide +kernel

theorem witness_PayloadIsBigEndianTwosComplement :
    (∃ t, exec .decRead (block response) = .next t ∧ t.result = .ok) ∧
    (∃ t, exec .decRead (block [0x01, 0x04, 0x04, 0x80, 0x00, 0x00, 0x00, 0xD2, 0x44]) = .next t ∧ t.result = .ok) :=
  ⟨answers _ _ (fun t => t.result = .ok) (by decide +kernel), answers _ _ (fun t => t.result = .ok) (by decide +kernel)⟩

theorem witness_MeasurementIsExactQuotient :
    (State.reset.setRaw 0x00003039).raw = 0x00003039 ∧ (State.reset.setRaw 0xFFFFCFC7).raw = 0xFFFFCFC7 := ⟨rfl, rfl⟩

theorem witness_LongFramesAreJudgedLiterally :
    ((block response).rx.toList.take (block response).rxLen.val =
        0x01 :: 0x04 :: 0x04 :: 0x00 :: 0x00 :: 0x30 :: 0x39 :: ([] ++ [0x2F, 0x96]) ∧
      crc16 [0x01, 0x04, 0x04, 0x00, 0x00, 0x30, 0x39] = (0x96 : Byte) ++ (0x2F : Byte)) ∧
    ((block longResponse).rx.toList.take (block longResponse).rxLen.val =
        0x01 :: 0x04 :: 0x04 :: 0x00 :: 0x00 :: 0x30 :: 0x39 ::
          ([0x55, 0x55, 0x55, 0x55, 0x55, 0x55, 0x55] ++ [0x38, 0x4B]) ∧
      crc16 (longResponse.take 14) = (0x4B : Byte) ++ (0x38 : Byte)) ∧
    (response.length = 9 ∧ (block response).rx.toList.take (block response).rxLen.val = response ∧
      (block (response ++ [0x00])).rx.toList.take (block (response ++ [0x00])).rxLen.val = response ++ [0x00]) ∧
    (∃ v, exec .decRead (block response) = .next v ∧ v.result = .ok) :=
  ⟨by decide +kernel, by decide +kernel, by decide +kernel,
    answers _ _ (fun t => t.result = .ok) (by decide +kernel)⟩

theorem witness_OtherFramesAreNeverAccepted :
    (block [0x01, 0x06, 0x00, 0x36, 0x00, 0x01, 0xA8, 0x04]).rx[1] ≠ 0x04 ∧
    (block [0x01, 0x84, 0x02, 0xC2, 0xC1]).rx.toList.take (block [0x01, 0x84, 0x02, 0xC2, 0xC1]).rxLen.val =
      [0x01, 0x84, 0x02, 0xC2, 0xC1] := by decide +kernel

theorem witness_ChkEchoJudgesLengthAlone :
    (0x00000121 : Word).toNat % 256 = 0x21 ∧ (0x00000121 : Word).toNat / 256 ≠ 0 := by decide

theorem witness_ChkHdrChecksTwoBytes :
    ((0x00000122 : Word).toNat % 256 = 0x22 ∧ (0x00000122 : Word).toNat / 256 ≠ 0) ∧
    (block [0x01, 0x04, 0x04, 0x00, 0x00]).rx.toList.take (block [0x01, 0x04, 0x04, 0x00, 0x00]).rxLen.val =
      [0x01, 0x04, 0x04, 0x00, 0x00] := by decide +kernel

theorem witness_OnlyDecReadVouchesForTheCrc :
    ∃ t, exec .decRead (block longResponse) = .next t ∧ t.result = .ok :=
  answers _ _ (fun t => t.result = .ok) (by decide +kernel)

theorem witness_HeaderAndReadResultsAgree :
    (∃ t, exec .decRead (block response) = .next t ∧ t.result = .ok) ∧
    (∃ u, exec .chkHdr (block [0x01, 0x06]) = .next u ∧ u.result = .malformed) :=
  ⟨answers _ _ (fun t => t.result = .ok) (by decide +kernel), answers _ _ (fun t => t.result = .malformed) (by decide +kernel)⟩

theorem witness_BytesAboveRxLenAreUnread :
    (buffer (response ++ [0xFF])).toList.take (block response).rxLen.val =
      (block response).rx.toList.take (block response).rxLen.val ∧
    (∃ t, exec .decRead (block response) = .next t ∧ t.result = .ok) ∧
    (∃ t, exec .chkEcho (block response) = .next t ∧ t.result = .ok) ∧
    (∃ t, exec .chkHdr (block response) = .next t ∧ t.result = .ok) :=
  ⟨by decide +kernel, answers _ _ (fun t => t.result = .ok) (by decide +kernel),
    answers _ _ (fun t => t.result = .ok) (by decide +kernel), answers _ _ (fun t => t.result = .ok) (by decide +kernel)⟩

theorem witness_IllegalWordReportsBadCommand :
    illegalWord 0x00000000 = true ∧ illegalWord 0x80000001 = true ∧ State.reset.rawValid = false ∧
    (∃ t, exec (decode 0x00000000) State.reset = .next t) ∧ (∃ t, exec (decode 0x000000FF) State.reset = .next t) :=
  ⟨by decide, by decide, rfl, ⟨_, rfl⟩, ⟨_, rfl⟩⟩

/-- One outcome for each result code a command can give (R171), at the lengths where the codes meet. -/
theorem witness_ResultCodesHaveTheirCauses :
    (∃ t, exec .decRead (block (response.take 8)) = .next t ∧ t.result = .truncated) ∧
    (∃ t, exec .chkEcho (block (response.take 7)) = .next t ∧ t.result = .truncated) ∧
    (∃ t, exec .chkHdr (block [0x01]) = .next t ∧ t.result = .truncated) ∧
    (∃ t, exec .decRead (block (0x02 :: response.tail)) = .next t ∧ t.result = .malformed) ∧
    (∃ t, exec .decRead (block (response.take 8 ++ [0x97])) = .next t ∧ t.result = .checksumMismatch) ∧
    (∃ t, exec (.crcCheck 0xFF 0xFE) (block []) = .next t ∧ t.result = .checksumMismatch) ∧
    (∃ t, exec (.encBaud 9601) (block []) = .next t ∧ t.result = .unsupportedBaud) ∧
    (∃ t, exec (.badCommand 0) (block []) = .next t ∧ t.result = .badCommand) :=
  ⟨answers _ _ (fun t => t.result = .truncated) (by decide +kernel),
    answers _ _ (fun t => t.result = .truncated) (by decide +kernel),
    answers _ _ (fun t => t.result = .truncated) (by decide +kernel),
    answers _ _ (fun t => t.result = .malformed) (by decide +kernel),
    answers _ _ (fun t => t.result = .checksumMismatch) (by decide +kernel),
    answers _ _ (fun t => t.result = .checksumMismatch) (by decide +kernel),
    answers _ _ (fun t => t.result = .unsupportedBaud) (by decide +kernel),
    answers _ _ (fun t => t.result = .badCommand) (by decide +kernel)⟩

theorem witness_FailedCommandsArePrecise :
    ∃ t, exec (.encBaud 9601) (block []) = .next t ∧ t.result ≠ .ok :=
  answers _ _ (fun t => t.result ≠ .ok) (by decide +kernel)

theorem witness_RegistersHaveTheirWriters :
    (∃ t, exec (.crcByte 0x00) (block []) = .next t ∧ t.crc ≠ (block []).crc) ∧
    (∃ t, exec .decRead (block response) = .next t ∧ t.raw ≠ (block response).raw) ∧
    (∃ t, exec .decRead (block []) = .next t ∧ t.rawValid ≠ (block []).rawValid) ∧
    (∃ t, exec .encRead (block []) = .next t ∧ t.tx ≠ (block []).tx ∧ t.txLen ≠ (block []).txLen) :=
  ⟨answers _ _ (fun t => t.crc ≠ (block []).crc) (by decide +kernel),
    answers _ _ (fun t => t.raw ≠ (block response).raw) (by decide +kernel),
    answers _ _ (fun t => t.rawValid ≠ (block []).rawValid) (by decide +kernel),
    answers _ _ (fun t => t.tx ≠ (block []).tx ∧ t.txLen ≠ (block []).txLen) (by decide +kernel)⟩

/-- The bytes next to the ranges a command can change: 0x03, 0x08 and 0x0C for a CRC command, 0x0B and 0x10 for
`DEC_READ`, 0x0F and 0x1C for an encoder command. -/
theorem witness_CommandsChangeTheirWindowBytes :
    (∃ t, exec .crcInit (block []) = .next t) ∧ ¬ (0x04 ≤ 0x03 ∧ 0x03 < 0x08) ∧ ¬ (0x08 ≤ 0x0C ∧ 0x0C < 0x0C) ∧
    (∃ t, exec .decRead (block []) = .next t) ∧ ¬ (0x0C ≤ 0x0B ∧ 0x0B < 0x10) ∧ ¬ (0x0C ≤ 0x10 ∧ 0x10 < 0x10) ∧
    (∃ t, exec .encRead (block []) = .next t) ∧ ¬ (0x10 ≤ 0x0F ∧ 0x0F < 0x1C) ∧ ¬ (0x10 ≤ 0x1C ∧ 0x1C < 0x1C) := by
  refine ⟨⟨_, rfl⟩, by decide, by decide, ?_, by decide, by decide, ⟨_, rfl⟩, by decide, by decide⟩
  obtain ⟨t, h, -⟩ := answers .decRead (block []) (fun t => t.result = .truncated) (by decide +kernel)
  exact ⟨t, h⟩

theorem witness_CommandsIgnoreEarlierFlags :
    (∃ t, exec .decRead (block response) = .next t ∧ t.result = .ok) ∧ (∃ t, exec .chkHdr (block []) = .next t ∧
      t.result = .truncated) :=
  ⟨answers _ _ (fun t => t.result = .ok) (by decide +kernel), answers _ _ (fun t => t.result = .truncated) (by decide +kernel)⟩

theorem witness_StepRunsDecodedCommand :
    (withEvents [.write 0x00 4 0x00000020]).inReset = false ∧
    (withEvents [.write 0x00 4 0x00000020]).pending = [.write 0x00 4 0x00000020] ∧ decode 0x00000020 = .decRead ∧
    decode 0xFFFFFFFF = .badCommand 0xFFFFFFFF := by decide

/-- The first, the last and the buffer words of the window (R35). -/
theorem witness_ReadsFollowTheRegisterMap :
    ∀ offset ∈ [0x00, 0x04, 0x08, 0x0C, 0x10, 0x14, 0x18, 0x1C, 0x20, 0x2C, 0x30, 0x3C],
      (withEvents [.read offset 4]).inReset = false ∧ (withEvents [.read offset 4]).pending = [.read offset 4] ∧
      offset % 4 = 0 ∧ offset < 64 := by decide

theorem witness_UnsupportedAccessesHaveNoEffect :
    (withEvents [.write 0x00 2 0x0001]).inReset = false ∧
    (withEvents [.write 0x00 2 0x0001]).pending = [.write 0x00 2 0x0001] ∧ 0x00 < 64 ∧ 2 ≠ 4 ∧
    (withEvents [.read 0x3F 4]).pending = [.read 0x3F 4] ∧ 0x3F < 64 ∧ 0x3F % 4 ≠ 0 := by decide

theorem witness_BufferPackingIsLittleEndian :
    0 < 4 ∧ 3 < 4 ∧ ∃ t, writeReg (.rxBuf 3) 0x2F393000 (block []) = .next t := ⟨by decide, by decide, _, rfl⟩

theorem witness_RxBufWritesFourBytes :
    (withEvents [.write (0x20 + 4 * (3 : Fin 4).val) 4 0x2F393000]).inReset = false ∧
    (withEvents [.write (0x20 + 4 * (3 : Fin 4).val) 4 0x2F393000]).pending = [.write 0x2C 4 0x2F393000] ∧
    11 < 16 ∧ 11 / 4 ≠ (3 : Fin 4).val ∧ (∃ t, exec .crcInit (block []) = .next t) :=
  ⟨rfl, rfl, by decide, by decide, _, rfl⟩

theorem witness_RxLenWriteIsBounded :
    (withEvents [.write 0x1C 4 16]).inReset = false ∧ (withEvents [.write 0x1C 4 16]).pending = [.write 0x1C 4 16] ∧
    (16 : Word).toNat ≤ 16 ∧ (withEvents [.write 0x1C 4 17]).pending = [.write 0x1C 4 17] ∧ 16 < (17 : Word).toNat ∧
    16 < (0x80000009 : Word).toNat ∧ (∃ t, exec .crcInit (block response) = .next t) :=
  ⟨rfl, rfl, by decide, rfl, by decide, by decide, _, rfl⟩

theorem witness_CmdReadsZeroAndStoresNothing :
    (withEvents [.read 0x00 4]).inReset = false ∧ (withEvents [.read 0x00 4]).pending = [.read 0x00 4] ∧
    (withEvents [.write 0x00 4 1]).pending = [.write 0x00 4 1] := by decide

theorem witness_ReadOnlyAndReservedWritesAreIgnored :
    (withEvents [.write 0x3C 4 0xFFFFFFFF]).inReset = false ∧
    (withEvents [.write 0x3C 4 0xFFFFFFFF]).pending = [.write 0x3C 4 0xFFFFFFFF] ∧
    0x3C ∈ [0x04, 0x08, 0x0C, 0x10, 0x14, 0x18, 0x30, 0x34, 0x38, 0x3C] := by decide

theorem witness_OnlyWritesHaveSideEffects :
    (withEvents [.read 0x20 4, .read 0x20 4]).inReset = false ∧
    (withEvents [.read 0x20 4, .read 0x20 4]).pending = [.read 0x20 4, .read 0x20 4] ∧ 0x20 < 64 ∧
    (withEvents [.write 0x01 4 7]).pending = [.write 0x01 4 7] ∧ 0x01 ≠ 0x00 ∧ 0x01 ≠ 0x1C ∧ 0x01 < 0x20 ∧
    (withEvents [.write 0x30 4 7]).pending = [.write 0x30 4 7] ∧ 0x30 ≤ 0x30 ∧ 0x30 < 64 ∧
    (withEvents [.write 0x1C 4 16]).pending = [.write 0x1C 4 16] ∧ (16 : Word).toNat ≤ 16 ∧
    (withEvents [.write 0x2C 4 7]).pending = [.write 0x2C 4 7] ∧ 0x2C = 0x20 + 4 * (3 : Fin 4).val ∧
    (withEvents [.write 0x00 4 1]).pending = [.write 0x00 4 1] := by decide

theorem witness_AccessOutsideWindowFaults :
    64 ≤ 64 ∧ (withEvents [.read 64 4]).pending = [.read 64 4] ∧
    (withEvents [.write 64 1 0]).pending = [.write 64 1 0] := by decide

theorem witness_WindowsAreSixtyFourBytesApart :
    63 < 64 ∧ windowOffset 0x40 0x7F = some 0x3F ∧ windowOffset 0x40 0x3F = none ∧ windowOffset 0x40 0x80 = none ∧
    0x40 % 64 = 0 ∧ 0x80 % 64 = 0 ∧ 0x40 ≠ 0x80 := by decide

theorem witness_MnemonicsExpandToCommandWrites :
    [(0x01 : Byte)] ≠ [] ∧ longResponse.length ≤ 16 ∧ ([] : List Byte).length ≤ 16 ∧ (∃ v ∈ [0xFF, 0x100], 0xFF < v) := by
  decide

theorem witness_LoadRxLoadsTheFrame :
    longResponse.length ≤ 16 ∧ (withEvents (loadRxEvents longResponse)).inReset = false ∧
    (withEvents (loadRxEvents longResponse)).pending = loadRxEvents longResponse ∧
    ([] : List Byte).length ≤ 16 ∧ loadRxEvents [] = [.write 0x1C 4 0] ∧
    loadRxEvents [0xAA] = [.write 0x20 4 0x000000AA, .write 0x1C 4 1] := by decide +kernel

theorem witness_EndOfResetGivesResetValues :
    (withEvents [.resetLine true]).pending = [.resetLine true] ∧
    ((withEvents [.read 0x3F 1]).setInReset true).inReset = true ∧ 0x3F < 64 ∧
    ((withEvents [.read 0x3F 1]).setInReset true).pending = [.read 0x3F 1] ∧
    ((withEvents [.write 0x00 4 1]).setInReset true).pending = [.write 0x00 4 1] ∧
    ((withEvents [.resetLine false]).setInReset true).pending = [.resetLine false] := by decide

theorem witness_OnlyCommandsAndResetChangeResults :
    (∃ t, step (withEvents [.write 0x00 4 0x00000001]) = .next t ∧ t.lastOp ≠ 0x00) ∧
    (∃ t, step ((withEvents [.resetLine false]).setInReset true) = .next t ∧ t.raw ≠ 0x11111111) ∧
    (∃ t, step (withEvents [.write 0x1C 4 16]) = .next t ∧ t.rxLen ≠ (withEvents [.write 0x1C 4 16]).rxLen) ∧
    (∃ t, step (withEvents [.write 0x2C 4 0xFF000000]) = .next t ∧
      t.rx[15] ≠ (withEvents [.write 0x2C 4 0xFF000000]).rx[15]) :=
  ⟨steps _ (fun t => t.lastOp ≠ 0x00) (by decide +kernel), steps _ (fun t => t.raw ≠ 0x11111111) (by decide +kernel),
    steps _ (fun t => t.rxLen ≠ (withEvents [.write 0x1C 4 16]).rxLen) (by decide +kernel),
    steps _ (fun t => t.rx[15] ≠ (withEvents [.write 0x2C 4 0xFF000000]).rx[15]) (by decide +kernel)⟩

/-- The invariant holds after a zero request has been built and after a command was refused, and a step goes on. -/
theorem witness_StepKeepsTheRegisterInvariant :
    State.Inv (((State.reset.setTx (frame (request fcWrite regZero zeroValue))).setTxLen 8).report .ok opEncZero) ∧
    State.Inv (State.reset.report .badCommand 0x00) ∧
    (∃ t, step ((State.reset.report .badCommand 0x00).setPending [.write 0x00 4 0x00000011]) = .next t ∧
      t.txLen = 8) := by
  refine ⟨?_, ?_, steps _ (fun t => t.txLen = 8) (by decide +kernel)⟩
  · constructor
    case txHoldsRequest => exact fun _ => ⟨_, List.mem_cons_of_mem _ List.mem_cons_self, rfl⟩
    all_goals decide
  · constructor
    case txHoldsRequest => exact fun h => absurd h (by decide)
    all_goals decide

/-- A `DEC_READ` accepted and one that clears `RAW_VALID`, the end of a reset, and as other steps an access of another
command, the assertion of the reset input, and the release of one that is not asserted. -/
theorem witness_RawValidFollowsDecRead :
    (withEvents [.write 0x00 4 0x00000020]).inReset = false ∧
    (∃ t, step (withEvents [.write 0x00 4 0x00000020]) = .next t ∧ t.rawValid = true) ∧
    (∃ t, step ((block [0x01]).setPending [.write 0x00 4 0x00000020]) = .next t ∧ t.rawValid = false) ∧
    ((withEvents [.resetLine false]).setInReset true).inReset = true ∧
    (∃ t, step (withEvents [.write 0x00 4 0x00000022]) = .next t ∧ t.rawValid = true) ∧
    (∃ t, step (withEvents [.resetLine true]) = .next t ∧ t.rawValid = true) ∧
    (∃ t, step (withEvents [.resetLine false]) = .next t ∧ t.rawValid = true) ∧
    (∀ rest, (withEvents [.resetLine true]).pending ≠ .write 0x00 4 0x00000020 :: rest) ∧
    (∀ rest, (withEvents [.resetLine true]).pending ≠ .resetLine false :: rest) :=
  ⟨rfl, steps _ (fun t => t.rawValid = true) (by decide +kernel), steps _ (fun t => t.rawValid = false) (by decide +kernel),
    rfl, steps _ (fun t => t.rawValid = true) (by decide +kernel), steps _ (fun t => t.rawValid = true) (by decide +kernel),
    steps _ (fun t => t.rawValid = true) (by decide +kernel), by simp [withEvents], by simp [withEvents]⟩

theorem witness_ObedientHostIsNeverStopped :
    hostObeys false [.write 0x3F 4 0, .resetLine true, .resetLine false, .read 0x00 1] = true ∧
    hostObeys true [.resetLine false, .read 0x04 4] = true := by decide

end Sys2Proof.Tests
end

/-! # Proofs: registers, flags and the register window (spec/10_state.md)

The layer below says once what a command does (`CommandEffect`), what a supported access does (`step_read_reg`,
`step_write_reg`) and what a step does to the registers (`step_register_cases`). The statements follow from it. -/

namespace Sys2Proof.Proofs

open Sys2Proof Sys2Proof.Machine

/-! ## What a command word decodes to -/

/-- The command of a word carries the word's OP (R29, R70). -/
theorem decode_op (w : Word) : (decode w).op = wordOp w := by
  apply BitVec.eq_of_toNat_eq
  rw [wordOp_toNat]
  rcases decode_cases w with ⟨h, hd⟩ | ⟨h, -, hd⟩ | ⟨h, -, hd⟩ | ⟨h, hd⟩ | ⟨h, hd⟩ | ⟨h, hd⟩ | ⟨h, hd⟩ | ⟨h, hd⟩ |
    ⟨h, hd⟩ | ⟨h, hd⟩ | ⟨-, hd⟩
  case inr.inr.inr.inr.inr.inr.inr.inr.inr.inr => rw [hd, Instr.op, wordOp_toNat]
  all_goals rw [hd, h]; rfl

/-- The decoder answers well-formed commands only. -/
theorem decode_wellFormed (w : Word) : (decode w).wellFormed = true := by
  rcases decode_cases w with ⟨-, hd⟩ | ⟨-, -, hd⟩ | ⟨-, -, hd⟩ | ⟨-, hd⟩ | ⟨-, hd⟩ | ⟨-, hd⟩ | ⟨-, hd⟩ | ⟨-, hd⟩ |
    ⟨-, hd⟩ | ⟨-, hd⟩ | ⟨h, hd⟩
  case inr.inr.inr.inr.inr.inr.inr.inr.inr.inr => rw [hd]; exact h
  all_goals rw [hd]; rfl

/-- `DEC_READ` has one command word (R73). -/
theorem eq_of_decode_eq_decRead {w : Word} (h : decode w = .decRead) : w = 0x00000020 := by
  have hn : w.toNat = 0x20 := by
    rw [decode_eq] at h
    split_ifs at h
    assumption
  exact BitVec.eq_of_toNat_eq hn

/-- Every word whose OP is 0x12 is an `ENC_BAUD` (R73, layout R), so no illegal word has that OP. -/
theorem wordOp_ne_encBaud_of_illegal {w : Word} (h : illegalWord w = true) : wordOp w ≠ opEncBaud := by
  intro he
  have hm : w.toNat % 256 = 0x12 := by rw [← wordOp_toNat, he]; rfl
  rw [illegalWord_iff] at h
  tauto

/-- Besides `DEC_READ` only an illegal word can have its OP (R73, R74). -/
theorem eq_of_op_eq_decRead {i : Instr} (h : i.op = opDecRead) : i = .decRead ∨ ∃ w, i = .badCommand w := by
  cases i with
  | decRead => exact .inl rfl
  | badCommand w => exact .inr ⟨w, rfl⟩
  | _ =>
    rw [Instr.op] at h
    exact absurd h (by decide)

/-- A well-formed command with the OP of `ENC_BAUD` is one. -/
theorem eq_of_op_eq_encBaud {i : Instr} (hw : i.wellFormed = true) (h : i.op = opEncBaud) :
    ∃ rate, i = .encBaud rate := by
  cases i with
  | encBaud rate => exact ⟨rate, rfl⟩
  | badCommand w => exact absurd h (wordOp_ne_encBaud_of_illegal hw)
  | _ =>
    rw [Instr.op] at h
    exact absurd h (by decide)

/-! ## What a command does -/

/-- The command `i` takes `s` to `t`: the register writes of each kind of command, then its report. -/
inductive CommandEffect (s : State) : Instr → State → Prop
  | crc {i : Instr} (v : Half) (hi : i = .crcInit ∨ (∃ d, i = .crcByte d) ∨ i = .crcRx) :
    CommandEffect s i ((s.setCrc v).report .ok i.op)
  | check {i : Instr} (code : ResultCode) (hi : (∃ lo hi, i = .crcCheck lo hi) ∨ i = .chkEcho ∨ i = .chkHdr)
    (hfit : resultFitsOp code i.op = true) : CommandEffect s i (s.report code i.op)
  | frameBuilt {i : Instr} (p : Vector Byte 6) (hi : i = .encRead ∨ i = .encZero ∨ ∃ rate, i = .encBaud rate)
    (hp : p ∈ requestPayloads) : CommandEffect s i (((s.setTx (frame p)).setTxLen 8).report .ok i.op)
  | rateRejected (rate : BitVec 24) :
    CommandEffect s (.encBaud rate) ((s.setTxLen 0).report .unsupportedBaud opEncBaud)
  | readAccepted :
    CommandEffect s .decRead (((s.setRaw (payload s)).setRawValid true).report .ok opDecRead)
  | readRejected (code : ResultCode) (hok : code ≠ .ok) (hfit : resultFitsOp code opDecRead = true) :
    CommandEffect s .decRead ((s.setRawValid false).report code opDecRead)
  | illegal (w : Word) : CommandEffect s (.badCommand w) (s.report .badCommand (wordOp w))

/-- Every command completes from every state, with an effect of its kind (R170). -/
theorem exec_effect (i : Instr) (s : State) : ∃ t, exec i s = .next t ∧ CommandEffect s i t := by
  cases i with
  | crcInit => exact ⟨_, rfl, .crc _ (.inl rfl)⟩
  | crcByte d => exact ⟨_, rfl, .crc _ (.inr (.inl ⟨d, rfl⟩))⟩
  | crcRx => exact ⟨_, rfl, .crc _ (.inr (.inr rfl))⟩
  | crcCheck lo hi =>
    rcases execCrcCheck_cases lo hi s with ⟨-, h⟩ | ⟨-, h⟩ <;>
      exact ⟨_, h, .check _ (.inl ⟨lo, hi, rfl⟩) rfl⟩
  | chkEcho =>
    rcases execChkEcho_cases s with ⟨-, h⟩ | ⟨-, h⟩ <;> exact ⟨_, h, .check _ (.inr (.inl rfl)) rfl⟩
  | chkHdr =>
    rcases execChkHdr_cases s with ⟨-, h⟩ | ⟨-, -, h⟩ | ⟨-, -, -, h⟩ <;>
      exact ⟨_, h, .check _ (.inr (.inr rfl)) rfl⟩
  | encRead => exact ⟨_, rfl, .frameBuilt _ (.inl rfl) List.mem_cons_self⟩
  | encZero => exact ⟨_, rfl, .frameBuilt _ (.inr (.inl rfl)) (List.mem_cons_of_mem _ List.mem_cons_self)⟩
  | encBaud rate =>
    rcases execEncBaud_cases rate s with ⟨-, h⟩ | ⟨e, he, -, h⟩
    · exact ⟨_, h, .rateRejected rate⟩
    · exact ⟨_, h, .frameBuilt _ (.inr (.inr ⟨rate, rfl⟩))
        (List.mem_cons_of_mem _ (List.mem_cons_of_mem _ (List.mem_map_of_mem he)))⟩
  | decRead =>
    rcases execDecRead_cases s with ⟨-, h⟩ | ⟨-, -, h⟩ | ⟨-, -, -, h⟩ | ⟨-, -, -, h⟩
    case inr.inr.inr => exact ⟨_, h, .readAccepted⟩
    all_goals exact ⟨_, h, .readRejected _ (by decide) rfl⟩
  | badCommand w => exact ⟨_, rfl, .illegal w⟩

theorem effect_of_exec {i : Instr} {s t : State} (h : exec i s = .next t) : CommandEffect s i t := by
  obtain ⟨u, hu, he⟩ := exec_effect i s
  rw [hu] at h
  cases h
  exact he

section
variable {i : Instr} {s t : State}

theorem CommandEffect.lastOp_eq (h : CommandEffect s i t) : t.lastOp = i.op := by
  cases h <;> rfl

/-- No assigned OP is 0x00, the one OP that `NONE` stands beside. -/
theorem CommandEffect.result_ne_none (h : CommandEffect s i t) : t.result ≠ .none := by
  cases h with
  | check code hi hfit =>
    rintro rfl
    rcases hi with ⟨lo, hi, rfl⟩ | rfl | rfl <;> cases hfit
  | readRejected code _ hfit =>
    rintro rfl
    cases hfit
  | _ => simp

/-- The result of a well-formed command is one its OP can give (R171). -/
theorem CommandEffect.result_fits (h : CommandEffect s i t) (hw : i.wellFormed = true) :
    resultFitsOp t.result t.lastOp = true := by
  cases h with
  | crc v hi => rcases hi with rfl | ⟨d, rfl⟩ | rfl <;> rfl
  | check code hi hfit => exact hfit
  | frameBuilt p hi hp => rcases hi with rfl | rfl | ⟨rate, rfl⟩ <;> rfl
  | rateRejected rate => rfl
  | readAccepted => rfl
  | readRejected code hok hfit => exact hfit
  | illegal w => simpa [resultFitsOp] using wordOp_ne_encBaud_of_illegal hw

theorem CommandEffect.result_of_badCommand {w : Word} (h : CommandEffect s (.badCommand w) t) :
    t.result = .badCommand := by
  cases h with
  | crc v hi => simp at hi
  | check code hi => simp at hi
  | frameBuilt p hi => simp at hi
  | illegal w => rfl

/-- `RAW_VALID` is what it was, or a `DEC_READ` has set it to whether it was accepted (R28). -/
theorem CommandEffect.rawValid_cases (h : CommandEffect s i t) :
    (t.rawValid = s.rawValid ∧ i ≠ .decRead) ∨ (i = .decRead ∧ (t.rawValid = true ↔ t.result = .ok)) := by
  cases h with
  | crc v hi => exact .inl ⟨rfl, by rintro rfl; simp at hi⟩
  | check code hi => exact .inl ⟨rfl, by rintro rfl; simp at hi⟩
  | frameBuilt p hi => exact .inl ⟨rfl, by rintro rfl; simp at hi⟩
  | rateRejected rate => exact .inl ⟨rfl, by simp⟩
  | readAccepted => exact .inr ⟨rfl, by simp⟩
  | readRejected code hok => exact .inr ⟨rfl, by simp [hok]⟩
  | illegal w => exact .inl ⟨rfl, by simp⟩

/-- `TX` and `TXLEN` are what they were, or an encoder command has built a frame, or `ENC_BAUD` has rejected its rate
(R30, R31, R121, R125). -/
theorem CommandEffect.tx_cases (h : CommandEffect s i t) :
    (t.tx = s.tx ∧ t.txLen = s.txLen ∧ ∀ rate, i ≠ .encBaud rate) ∨
      (t.txLen = 8 ∧ t.result = .ok ∧ (∃ p ∈ requestPayloads, t.tx = frame p) ∧
        (i = .encRead ∨ i = .encZero ∨ ∃ rate, i = .encBaud rate)) ∨
      (t.tx = s.tx ∧ t.txLen = 0 ∧ t.result = .unsupportedBaud ∧ ∃ rate, i = .encBaud rate) := by
  cases h with
  | crc v hi => exact .inl ⟨rfl, rfl, by rintro rate rfl; simp at hi⟩
  | check code hi => exact .inl ⟨rfl, rfl, by rintro rate rfl; simp at hi⟩
  | frameBuilt p hi hp => exact .inr (.inl ⟨rfl, rfl, ⟨p, hp, rfl⟩, hi⟩)
  | rateRejected rate => exact .inr (.inr ⟨rfl, rfl, rfl, rate, rfl⟩)
  | readAccepted => exact .inl ⟨rfl, rfl, by simp⟩
  | readRejected code => exact .inl ⟨rfl, rfl, by simp⟩
  | illegal w => exact .inl ⟨rfl, rfl, by simp⟩

theorem CommandEffect.crc_cases (h : CommandEffect s i t) :
    t.crc = s.crc ∨ i = .crcInit ∨ (∃ d, i = .crcByte d) ∨ i = .crcRx := by
  cases h with
  | crc v hi => exact .inr hi
  | _ => exact .inl rfl

theorem CommandEffect.raw_cases (h : CommandEffect s i t) : t.raw = s.raw ∨ (i = .decRead ∧ t.result = .ok) := by
  cases h with
  | readAccepted => exact .inr ⟨rfl, rfl⟩
  | _ => exact .inl rfl

/-- No command writes the host's buffer or anything of the host's side. -/
theorem CommandEffect.host_side_kept (h : CommandEffect s i t) :
    t.rxLen = s.rxLen ∧ t.rx = s.rx ∧ t.inReset = s.inReset ∧ t.pending = s.pending ∧ t.reply = s.reply ∧
      t.draws = s.draws := by
  cases h <;> exact ⟨rfl, rfl, rfl, rfl, rfl, rfl⟩

/-- A well-formed command ends in a state that meets the invariant. -/
theorem CommandEffect.inv (h : CommandEffect s i t) (hw : i.wellFormed = true) (hs : State.Inv s) : State.Inv t where
  txLenLegal := by
    rcases h.tx_cases with ⟨-, hl, -⟩ | ⟨hl, -⟩ | ⟨-, hl, -⟩
    · rw [hl]; exact hs.txLenLegal
    · exact .inr hl
    · exact .inl hl
  txHoldsRequest h8 := by
    rcases h.tx_cases with ⟨ht, hl, -⟩ | ⟨-, -, hp, -⟩ | ⟨-, hl, -⟩
    · rw [ht]; exact hs.txHoldsRequest (hl ▸ h8)
    · exact hp
    · exact absurd (hl ▸ h8) (by decide)
  noneMeansUntouched hn := absurd hn h.result_ne_none
  resultFits := h.result_fits hw
  rawValidFits hop hbad := by
    rcases eq_of_op_eq_decRead (h.lastOp_eq ▸ hop) with rfl | ⟨w, rfl⟩
    · exact (h.rawValid_cases.resolve_left fun hk => hk.2 rfl).2
    · exact absurd h.result_of_badCommand hbad
  txLenFits hop := by
    obtain ⟨rate, rfl⟩ := eq_of_op_eq_encBaud hw (h.lastOp_eq ▸ hop)
    rcases h.tx_cases with ⟨-, -, hne⟩ | ⟨hl, hr, -⟩ | ⟨-, hl, hr, -⟩
    · exact absurd rfl (hne rate)
    · simp [hl, hr]
    · simp [hl, hr]

end

/-! ## Commands as equations: the report is chosen by `CRC`, `RXLEN` and `RX` -/

theorem exec_crcCheck (lo hi : Byte) (s : State) : exec (.crcCheck lo hi) s =
    .next (s.report (if s.crc = expectedCrc lo hi then .ok else .checksumMismatch) opCrcCheck) := by
  rcases execCrcCheck_cases lo hi s with ⟨hc, h⟩ | ⟨hc, h⟩ <;> simp [exec, h, hc]

theorem exec_chkEcho (s : State) : exec .chkEcho s =
    .next (s.report (if echoMinLen ≤ s.rxLen.val then .ok else .truncated) opChkEcho) := by
  rcases execChkEcho_cases s with ⟨hc, h⟩ | ⟨hc, h⟩
  · rw [if_pos hc]
    exact h
  · rw [if_neg (Nat.not_le.2 hc)]
    exact h

theorem exec_chkHdr (s : State) : exec .chkHdr s =
    .next (s.report (if s.rxLen.val < hdrMinLen then .truncated
      else if s.rxByte 0 = slaveAddr ∧ s.rxByte 1 = fcRead then .ok else .malformed) opChkHdr) := by
  rcases execChkHdr_cases s with ⟨hc, h⟩ | ⟨hc, hb, h⟩ | ⟨hc, h0, h1, h⟩
  · rw [if_pos hc]
    exact h
  · rw [if_neg (Nat.not_lt.2 hc), if_neg (by tauto)]
    exact h
  · rw [if_neg (Nat.not_lt.2 hc), if_pos ⟨h0, h1⟩]
    exact h

theorem execDecRead_accepted {s : State} (h : readResponseResult s = .ok) :
    execDecRead s = .next (((s.setRaw (payload s)).setRawValid true).report .ok opDecRead) := by
  unfold execDecRead
  rw [h]
  rfl

theorem execDecRead_rejected {s : State} (h : readResponseResult s ≠ .ok) :
    execDecRead s = .next ((s.setRawValid false).report (readResponseResult s) opDecRead) := by
  unfold execDecRead
  split
  · contradiction
  · rfl

/-! ## What a supported access does -/

/-- A 4-byte read at a register's offset answers the register and takes the access (R51). -/
theorem step_read_reg {s : State} {rest : List HostEvent} (r : Reg) (hr : s.inReset = false)
    (hp : s.pending = .read r.offset 4 :: rest) :
    step s = .next { s with pending := rest, reply := .word (s.readReg r) } := by
  rw [step_of_read hp, busRead, if_neg (Nat.not_le.2 r.offset_lt), if_neg (by simp [hr]), accessedReg_offset]
  cases r <;> rfl

/-- A 4-byte write at a register's offset is the write of that register, with the access taken (R51). -/
theorem step_write_reg {s : State} {v : Word} {rest : List HostEvent} (r : Reg) (hr : s.inReset = false)
    (hp : s.pending = .write r.offset 4 v :: rest) :
    step s = writeReg r v { s with pending := rest } := by
  rw [step_of_write hp, busWrite, if_neg (Nat.not_le.2 r.offset_lt), if_neg (by simp [hr]), accessedReg_offset]
  rfl

/-- Every multiple of 4 in the window is the offset of a register (R35). -/
theorem exists_reg_of_offset {offset : Nat} (h4 : offset % 4 = 0) (h : offset < 64) :
    ∃ r : Reg, offset = r.offset := by
  cases ha : accessedReg offset 4 with
  | some r => exact ⟨r, (accessedReg_eq_some ha).2⟩
  | none => simp [accessedReg_eq_none_iff (show offset < windowSize from h), h4] at ha

/-! ## What a read shows -/

/-- A byte of the window reads the same when the register whose word holds it does. -/
theorem windowByte_congr {s t : State} (a : Nat)
    (h : ∀ r : Reg, r.offset = 4 * (a / 4) → t.readReg r = s.readReg r) : t.windowByte a = s.windowByte a := by
  unfold State.windowByte
  cases ha : accessedReg (4 * (a / 4)) 4 with
  | none => rfl
  | some r => exact congrArg (lane · (a % 4)) (h r (accessedReg_eq_some ha).2.symm)

/-- `RXBUF<k>` reads back what a write of it stored (R33, R53). -/
theorem readReg_rxBuf_setRxWord (k : Fin 4) (v : Word) (s : State) :
    (s.setRxWord k v).readReg (.rxBuf k) = v := by
  have hb : ∀ j (hj : j < 4), (s.setRxWord k v).rx[4 * k.val + j] = lane v j := by
    intro j hj
    rw [State.setRxWord_getElem, if_pos (by omega), show (4 * k.val + j) % 4 = j by omega]
  have h0 : (s.setRxWord k v).rx[4 * k.val] = lane v 0 := hb 0 (by omega)
  rw [State.readReg, State.rxWord, h0, hb 1 (by omega), hb 2 (by omega), hb 3 (by omega), packWord_lanes]

/-- `RXLEN` reads as the length (R32). -/
theorem readReg_rxLen_toNat (s : State) : (s.readReg .rxLen).toNat = s.rxLen.val := by
  rw [State.readReg, BitVec.toNat_ofNat, Nat.mod_eq_of_lt (by omega)]

/-- A word below `2 ^ k` has no 1 at or above bit `k`. -/
theorem extractLsb'_eq_zero_of_lt {w : Word} {k n : Nat} (h : w.toNat < 2 ^ k) : w.extractLsb' k n = 0 := by
  apply BitVec.eq_of_toNat_eq
  rw [BitVec.extractLsb'_toNat, Nat.shiftRight_eq_zero _ _ h]
  simp

/-! ## What a step does to the registers -/

/-- The registers only commands and the end of a reset write. -/
def resultRegs (s : State) : Half × Word × ResultCode × Bool × Byte × BitVec 4 × Vector Byte 8 :=
  (s.crc, s.raw, s.result, s.rawValid, s.lastOp, s.txLen, s.tx)

/-- The invariant speaks of those registers alone. -/
theorem inv_of_resultRegs_eq {s t : State} (h : resultRegs t = resultRegs s) (hs : State.Inv s) : State.Inv t := by
  simp only [resultRegs, Prod.mk.injEq] at h
  obtain ⟨hcrc, hraw, hresult, hvalid, hop, hlen, htx⟩ := h
  obtain ⟨h1, h2, h3, h4, h5, h6⟩ := hs
  constructor <;> simpa only [hcrc, hraw, hresult, hvalid, hop, hlen, htx]

/-- The invariant holds at the end of every reset. -/
theorem inv_afterReset (n : Nat) : State.Inv (State.afterReset n) where
  txLenLegal := .inl rfl
  txHoldsRequest h := absurd h (by simp)
  noneMeansUntouched _ := ⟨rfl, rfl, rfl, rfl, rfl⟩
  resultFits := rfl
  rawValidFits h := absurd h (by simp only [State.afterReset_lastOp]; decide)
  txLenFits h := absurd h (by simp only [State.afterReset_lastOp]; decide)

/-- What a step does to the registers: nothing, a command, a write of `RXLEN` or of an `RXBUF` word, or the end of a
reset. -/
theorem step_register_cases {s t : State} (h : step s = .next t) :
    (resultRegs t = resultRegs s ∧ t.rxLen = s.rxLen ∧ t.rx = s.rx) ∨
    (∃ w rest, s.pending = .write 0x00 4 w :: rest ∧ s.inReset = false ∧
      exec (decode w) (s.setPending rest) = .next t) ∨
    (∃ v rest, ∃ n : Fin 17, s.pending = .write 0x1C 4 v :: rest ∧ s.inReset = false ∧ v.toNat ≤ 16 ∧
      t = (s.setPending rest).setRxLen n) ∨
    (∃ k : Fin 4, ∃ v rest, s.pending = .write (0x20 + 4 * k.val) 4 v :: rest ∧ s.inReset = false ∧
      t = (s.setPending rest).setRxWord k v) ∨
    (∃ rest, s.pending = .resetLine false :: rest ∧ s.inReset = true ∧ t = (s.setPending rest).endReset) := by
  rcases step_next_cases h with ⟨-, rfl⟩ | ⟨_, _, rest, -, -, -, r, rfl⟩ | hcmd | ⟨v, rest, hp, hr, rfl⟩ |
    hrx | ⟨_, _, _, rest, -, -, -, rfl⟩ | ⟨a, rest, hp, rfl⟩
  · exact .inl ⟨rfl, rfl, rfl⟩
  · exact .inl ⟨rfl, rfl, rfl⟩
  · exact .inr (.inl hcmd)
  · rcases (s.setPending rest).writeRxLen_cases v with ⟨n, hn, he⟩ | ⟨-, he⟩
    · exact .inr (.inr (.inl ⟨v, rest, n, hp, hr, by omega, he⟩))
    · exact .inl (by rw [he]; exact ⟨rfl, rfl, rfl⟩)
  · exact .inr (.inr (.inr (.inl hrx)))
  · exact .inl ⟨rfl, rfl, rfl⟩
  · rcases (s.setPending rest).driveReset_cases a with ⟨-, he⟩ | ⟨rfl, hr, he⟩ | ⟨-, -, he⟩
    · exact .inl (by rw [he]; exact ⟨rfl, rfl, rfl⟩)
    · exact .inr (.inr (.inr (.inr ⟨rest, hp, hr, he⟩)))
    · exact .inl (by rw [he]; exact ⟨rfl, rfl, rfl⟩)

/-! ## The invariant of the registers -/

/-- Settles O58: a command ends in a state that meets the invariant, a reset does too, and every other step keeps the
registers the invariant speaks of. -/
theorem stepKeepsTheRegisterInvariant : Obligations.StepKeepsTheRegisterInvariant := by
  intro s t hs h
  rcases step_register_cases h with ⟨hregs, -, -⟩ | ⟨w, rest, -, -, hx⟩ | ⟨v, rest, n, -, -, -, rfl⟩ |
    ⟨k, v, rest, -, -, rfl⟩ | ⟨rest, -, -, rfl⟩
  · exact inv_of_resultRegs_eq hregs hs
  · exact (effect_of_exec hx).inv (decode_wellFormed w) (inv_of_resultRegs_eq (s := s) rfl hs)
  · exact inv_of_resultRegs_eq (s := s) rfl hs
  · exact inv_of_resultRegs_eq (s := s) rfl hs
  · exact inv_of_resultRegs_eq (s := State.afterReset s.draws) rfl (inv_afterReset s.draws)

/-- Settles O57: the power-up reset is the end of a reset. -/
theorem resetMeetsTheRegisterInvariant : Obligations.ResetMeetsTheRegisterInvariant :=
  inv_afterReset 0

/-! ## What every command does -/

/-- Settles O34: `LAST_OP` is the command's OP, which is the word's. -/
theorem everyCommandCompletesAndReports : Obligations.EveryCommandCompletesAndReports := by
  intro w s
  obtain ⟨t, ht, he⟩ := exec_effect (decode w) s
  refine ⟨t, ht, ?_, he.result_ne_none⟩
  rw [he.lastOp_eq, decode_op, wordOp_toNat]

/-- Settles O37, register by register from what a command does. -/
theorem registersHaveTheirWriters : Obligations.RegistersHaveTheirWriters := by
  intro i s t h
  have he := effect_of_exec h
  refine ⟨he.crc_cases.resolve_left, he.raw_cases.resolve_left, fun hv => ?_, fun htx => ?_, fun hlen => ?_,
    he.host_side_kept⟩
  · exact (he.rawValid_cases.resolve_left fun hk => hv hk.1).1
  · rcases he.tx_cases with ⟨hk, -⟩ | ⟨-, hok, -, hi⟩ | ⟨hk, -⟩
    · exact absurd hk htx
    · exact ⟨hi, hok⟩
    · exact absurd hk htx
  · rcases he.tx_cases with ⟨-, hk, -⟩ | ⟨-, -, -, hi⟩ | ⟨-, -, -, hi⟩
    · exact absurd hk hlen
    · exact hi
    · exact .inr (.inr hi)

/-- A register other than `STATUS` that the command does not write reads as before. -/
theorem readReg_of_exec {i : Instr} {s t : State} (h : exec i s = .next t) (r : Reg) (hst : r ≠ .status)
    (hcrc : (i = .crcInit ∨ (∃ d, i = .crcByte d) ∨ i = .crcRx) → r ≠ .crc) (hraw : i = .decRead → r ≠ .raw)
    (htx : (i = .encRead ∨ i = .encZero ∨ ∃ rate, i = .encBaud rate) → r ≠ .txLen ∧ ∀ k, r ≠ .txBuf k) :
    t.readReg r = s.readReg r := by
  obtain ⟨wcrc, wraw, -, wtx, wlen, hrxLen, hrx, -⟩ := registersHaveTheirWriters i s t h
  cases r with
  | cmd => rfl
  | status => exact absurd rfl hst
  | crc =>
    have hk : t.crc = s.crc := by_contra fun hne => hcrc (wcrc hne) rfl
    simp only [State.readReg, hk]
  | raw => exact by_contra fun hne => hraw (wraw hne).1 rfl
  | txLen =>
    have hk : t.txLen = s.txLen := by_contra fun hne => (htx (wlen hne)).1 rfl
    simp only [State.readReg, hk]
  | txBuf k =>
    have hk : t.tx = s.tx := by_contra fun hne => (htx (wtx hne).1).2 k rfl
    simp only [State.readReg, State.txWord, hk]
  | rxLen => simp only [State.readReg, hrxLen]
  | rxBuf k => simp only [State.readReg, State.rxWord, hrx]
  | reserved k => rfl

/-- Settles O38: the word that holds the byte belongs to a register the command does not write. -/
theorem commandsChangeTheirWindowBytes : Obligations.CommandsChangeTheirWindowBytes := by
  intro i s t h a hst hcrc hraw htx
  refine windowByte_congr a fun r hr =>
    readReg_of_exec h r ?_ (fun hi => ?_) (fun hi => ?_) (fun hi => ⟨?_, fun k => ?_⟩)
  · rintro rfl
    simp only [Reg.offset] at hr
    omega
  · rintro rfl
    simp only [Reg.offset] at hr
    exact hcrc hi (by omega)
  · rintro rfl
    simp only [Reg.offset] at hr
    exact hraw hi (by omega)
  · rintro rfl
    simp only [Reg.offset] at hr
    exact htx hi (by omega)
  · rintro rfl
    simp only [Reg.offset] at hr
    exact htx hi (by omega)

/-- Settles O39: each branch of a command is chosen by `CRC`, `RXLEN`, `RX` or the operands, which the flags leave
alone, and both flags of a report are overwritten. -/
theorem commandsIgnoreEarlierFlags : Obligations.CommandsIgnoreEarlierFlags := by
  intro i s t code op valid h
  cases i with
  | crcCheck lo hi =>
    rw [exec_crcCheck] at h ⊢
    cases h
    rfl
  | chkEcho =>
    rw [exec_chkEcho] at h ⊢
    cases h
    rfl
  | chkHdr =>
    rw [exec_chkHdr] at h ⊢
    cases h
    rfl
  | encBaud rate =>
    rcases rateCode_cases (rateOperand rate) with ⟨-, hc⟩ | ⟨e, -, -, hc⟩ <;>
      · simp only [exec, execEncBaud, hc] at h ⊢
        cases h
        rfl
  | decRead =>
    by_cases hc : readResponseResult s = .ok
    · cases (execDecRead_accepted hc).symm.trans h
      exact execDecRead_accepted hc
    · cases (execDecRead_rejected hc).symm.trans h
      exact execDecRead_rejected hc
  | _ =>
    cases h
    rfl

/-! ## `STATUS` and the reset values -/

/-- Settles O41: the five fields lie one above the other. -/
theorem statusWordHasItsFields : Obligations.StatusWordHasItsFields := by
  intro s
  have hw : s.readReg .status =
    (0#16 ++ s.lastOp ++ 0#3 ++ BitVec.ofBool s.rawValid ++ s.result.code : BitVec (16 + 8 + 3 + 1 + 4)) := rfl
  rw [hw]
  refine ⟨?_, ?_, ?_, ?_, ?_⟩
  · rw [BitVec.extractLsb'_append_eq_right]
    cases s.result <;> rfl
  · rw [BitVec.getLsbD_append, BitVec.getLsbD_append]
    simp
  · rw [BitVec.extractLsb'_append_eq_of_le (by omega), BitVec.extractLsb'_append_eq_of_le (by omega),
      BitVec.extractLsb'_append_eq_right]
    rfl
  · rw [BitVec.extractLsb'_append_eq_of_le (by omega), BitVec.extractLsb'_append_eq_of_le (by omega),
      BitVec.extractLsb'_append_eq_of_le (by omega), BitVec.extractLsb'_append_eq_right]
  · rw [BitVec.extractLsb'_append_eq_of_le (by omega), BitVec.extractLsb'_append_eq_of_le (by omega),
      BitVec.extractLsb'_append_eq_of_le (by omega), BitVec.extractLsb'_append_eq_of_le (by omega),
      BitVec.extractLsb'_eq_self]
    rfl

/-- Settles O54: each is the literal of `State.afterReset 0`. -/
theorem resetLeavesSpecValues : Obligations.ResetLeavesSpecValues :=
  ⟨rfl, rfl, rfl, rfl, rfl, rfl, rfl, rfl, rfl, rfl⟩

/-! ## Accesses to the window -/

/-- Settles O47: `CMD` is the register at offset 0. -/
theorem cmdReadsZeroAndStoresNothing : Obligations.CmdReadsZeroAndStoresNothing :=
  fun _ _ hr => ⟨step_read_reg .cmd hr, fun _ => step_write_reg .cmd hr⟩

/-- Settles O42: the offset is some register's, and its word is the map's entry there. -/
theorem readsFollowTheRegisterMap : Obligations.ReadsFollowTheRegisterMap := by
  intro s offset rest hr hp h4 h64
  obtain ⟨r, rfl⟩ := exists_reg_of_offset h4 h64
  rw [step_read_reg r hr hp]
  congr 3
  cases r with
  | crc => simp [Reg.offset, State.readReg, BitVec.ofNat_toNat]
  | txLen => simp [Reg.offset, State.readReg, BitVec.ofNat_toNat]
  | txBuf k => fin_cases k <;> rfl
  | rxBuf k => fin_cases k <;> rfl
  | reserved k => fin_cases k <;> rfl
  | _ => rfl

/-- Settles O45: the four bytes written are the word's lanes, and packed they are the word. -/
theorem rxBufWritesFourBytes : Obligations.RxBufWritesFourBytes := by
  refine ⟨fun s k v rest hr hp => ?_, fun i s t h => (effect_of_exec h).host_side_kept.2.1⟩
  refine ⟨((s.setPending rest).setRxWord k v).rx, step_write_reg (.rxBuf k) hr hp,
    readReg_rxBuf_setRxWord k v (s.setPending rest), fun i h hi => ?_⟩
  rw [State.setRxWord_getElem k v _ i h, if_neg hi, State.setPending_rx]

/-- Settles O46: the write stores the whole value when that is at most 16, and nothing otherwise. -/
theorem rxLenWriteIsBounded : Obligations.RxLenWriteIsBounded := by
  refine ⟨fun s v rest hr hp => ?_, fun s => ⟨readReg_rxLen_toNat s, by omega⟩,
    fun i s t h => (effect_of_exec h).host_side_kept.1⟩
  have hstep := step_write_reg .rxLen hr hp
  rw [writeReg] at hstep
  rcases State.writeRxLen_cases v { s with pending := rest } with ⟨n, hn, he⟩ | ⟨hbig, he⟩
  · rw [he] at hstep
    have hv : (v.extractLsb' 0 5).toNat = v.toNat % 32 := by simp [BitVec.extractLsb'_toNat]
    exact ⟨fun hbig => by omega, fun _ => ⟨n, hn, by omega, hstep⟩⟩
  · rw [he] at hstep
    exact ⟨fun _ => hstep, fun hle => by omega⟩

/-- Settles O48: of the registers only `CMD`, `RXLEN` and `RXBUF` have a write that does something. -/
theorem readOnlyAndReservedWritesAreIgnored : Obligations.ReadOnlyAndReservedWritesAreIgnored := by
  refine ⟨fun s offset v rest hr hp hmem => ?_, fun s => ?_⟩
  · have hword : ∀ o ∈ [0x04, 0x08, 0x0C, 0x10, 0x14, 0x18, 0x30, 0x34, 0x38, 0x3C], o % 4 = 0 ∧ o < 64 := by
      decide
    obtain ⟨h4, h64⟩ := hword offset hmem
    obtain ⟨r, rfl⟩ := exists_reg_of_offset h4 h64
    rw [step_write_reg r hr hp]
    cases r with
    | cmd => simp [Reg.offset] at hmem
    | rxLen => simp [Reg.offset] at hmem
    | rxBuf k => fin_cases k <;> simp [Reg.offset] at hmem
    | _ => rfl
  · obtain ⟨-, -, hlow, -, hhigh⟩ := statusWordHasItsFields s
    refine ⟨fun _ => rfl, rfl, hlow, hhigh, ?_, ?_, ?_⟩ <;> apply extractLsb'_eq_zero_of_lt
    · rw [State.readReg, BitVec.toNat_setWidth_of_le (by omega)]
      exact s.crc.isLt
    · rw [State.readReg, BitVec.toNat_setWidth_of_le (by omega)]
      exact s.txLen.isLt
    · rw [readReg_rxLen_toNat]
      omega

/-! ## What changes a register -/

/-- Settles O56, by what the step did to the registers. -/
theorem onlyCommandsAndResetChangeResults : Obligations.OnlyCommandsAndResetChangeResults := by
  intro s t h
  rcases step_register_cases h with ⟨hregs, hlen, hrx⟩ | ⟨w, rest, hp, hr, hx⟩ | ⟨v, rest, n, hp, hr, hv, rfl⟩ |
    ⟨k, v, rest, hp, hr, rfl⟩ | ⟨rest, hp, hr, -⟩
  · simp only [resultRegs, Prod.mk.injEq] at hregs
    refine ⟨fun hne => ?_, fun hne => absurd hlen hne, fun i _ hne => absurd (by simp only [hrx]) hne⟩
    tauto
  · obtain ⟨hlen, hrx, -⟩ := (effect_of_exec hx).host_side_kept
    exact ⟨fun _ => .inl ⟨w, rest, hp, hr⟩, fun hne => absurd hlen hne,
      fun i _ hne => absurd (by simp only [hrx]; rfl) hne⟩
  · exact ⟨by simp, fun _ => .inl ⟨v, rest, hp, hr, hv⟩, by simp⟩
  · refine ⟨by simp [State.setRxWord], by simp [State.setRxWord], fun i hi hne => .inl ⟨v, rest, ?_, hr⟩⟩
    have hk : i / 4 = k.val := by_contra fun hk => hne (by
      rw [State.setRxWord_getElem k v _ i hi, if_neg hk, State.setPending_rx])
    rw [hk]
    exact hp
  · have hend : ∃ rest, s.pending = .resetLine false :: rest ∧ s.inReset = true := ⟨rest, hp, hr⟩
    exact ⟨fun _ => .inr hend, fun _ => .inr hend, fun _ _ _ => .inr hend⟩

/-- Settles O59: `DEC_READ` by its effect, the end of a reset by its values, every other step by what it did to the
registers. -/
theorem rawValidFollowsDecRead : Obligations.RawValidFollowsDecRead := by
  refine ⟨fun s rest hr hp => ?_, fun s rest hr hp => ?_, fun s t h hcmd hend => ?_⟩
  · obtain ⟨t, ht, he⟩ := exec_effect .decRead { s with pending := rest }
    have hstep : step s = .next t := (step_write_reg .cmd hr hp).trans ht
    exact ⟨t, hstep, he.lastOp_eq, (he.rawValid_cases.resolve_left fun hk => hk.2 rfl).2⟩
  · rcases (s.setPending rest).driveReset_cases false with ⟨hf, -⟩ | ⟨-, -, he⟩ | ⟨-, hf, -⟩
    · cases hf
    · exact ⟨_, step_of_resetLine hp, by rw [he]; rfl⟩
    · exact absurd hr (by simpa using hf)
  · rcases step_register_cases h with ⟨hregs, -⟩ | ⟨w, rest, hp, hr, hx⟩ | ⟨v, rest, n, -, -, -, rfl⟩ |
      ⟨k, v, rest, -, -, rfl⟩ | ⟨rest, hp, hr, -⟩
    · simp only [resultRegs, Prod.mk.injEq] at hregs
      obtain ⟨-, -, -, hvalid, -⟩ := hregs
      exact hvalid
    · rcases (effect_of_exec hx).rawValid_cases with ⟨hk, -⟩ | ⟨hdec, -⟩
      · exact hk
      · exact absurd ⟨hr, eq_of_decode_eq_decRead hdec ▸ hp⟩ (hcmd rest)
    · rfl
    · rfl
    · exact absurd ⟨hr, hp⟩ (hend rest)

end Sys2Proof.Proofs

/-! # Proofs: the host's accesses (spec/20_memory.md)

Out of reset every read inside the window answers `readAnswer` and keeps the rest (`step_read_inside`); a write there at
an offset other than 0 stores a length, stores a buffer word, or does nothing (`step_write_inside`). -/

namespace Sys2Proof.Proofs

open Sys2Proof Sys2Proof.Machine

/-! ## The window's addresses -/

/-- The addresses of a block and the offsets they select (R50). -/
theorem windowOffset_eq_some_iff {base address offset : Nat} :
    windowOffset base address = some offset ↔ offset < 64 ∧ address = base + offset := by
  unfold windowOffset windowSize
  split <;> simp only [Option.some.injEq, reduceCtorEq, false_iff] <;> omega

/-- Settles O51: a common address would put the two bases less than 64 apart. -/
theorem windowsAreSixtyFourBytesApart : Obligations.WindowsAreSixtyFourBytesApart := by
  refine ⟨fun base offset h => windowOffset_eq_some_iff.2 ⟨h, rfl⟩,
    fun base address offset h => windowOffset_eq_some_iff.1 h, fun base other address hb ho hne => ?_⟩
  cases h1 : windowOffset base address with
  | none => exact .inl rfl
  | some i =>
    cases h2 : windowOffset other address with
    | none => exact .inr rfl
    | some j =>
      obtain ⟨hi, hbase⟩ := windowOffset_eq_some_iff.1 h1
      obtain ⟨hj, hother⟩ := windowOffset_eq_some_iff.1 h2
      omega

/-- Settles O50: the window is the first thing an access is judged by. -/
theorem accessOutsideWindowFaults : Obligations.AccessOutsideWindowFaults := by
  intro s offset width v rest ho
  constructor <;> intro hp
  · rw [step_of_read hp, busRead, if_pos (show windowSize ≤ offset from ho)]
  · rw [step_of_write hp, busWrite, if_pos (show windowSize ≤ offset from ho)]

/-! ## Reads -/

/-- What a read inside the window answers out of reset (R51, R52). -/
def readAnswer (s : State) (offset width : Nat) : BusReply :=
  match accessedReg offset width with
  | some r => .word (s.readReg r)
  | none => .zeroLanes width

/-- An unsupported read answers 0 in each lane it reads (R52). -/
theorem readAnswer_unsupported (s : State) {offset width : Nat} (h : offset < windowSize)
    (hu : width ≠ 4 ∨ offset % 4 ≠ 0) : readAnswer s offset width = .zeroLanes width := by
  rw [readAnswer, (accessedReg_eq_none_iff h).2 hu]

/-- What is still to arrive and what was answered last do not enter an answer. -/
theorem readAnswer_setPending_setReply (s : State) (rest : List HostEvent) (r : BusReply) (offset width : Nat) :
    readAnswer ((s.setPending rest).setReply r) offset width = readAnswer s offset width := by
  unfold readAnswer
  cases accessedReg offset width with
  | none => rfl
  | some reg => cases reg <;> rfl

/-- A read inside the window takes the access, answers, and keeps everything else (R56). -/
theorem step_read_inside {s : State} {offset width : Nat} {rest : List HostEvent} (hr : s.inReset = false)
    (ho : offset < windowSize) (hp : s.pending = .read offset width :: rest) :
    step s = .next ((s.setPending rest).setReply (readAnswer s offset width)) := by
  cases ha : accessedReg offset width with
  | some r =>
    obtain ⟨rfl, rfl⟩ := accessedReg_eq_some ha
    rw [step_read_reg r hr hp, readAnswer, ha]
    rfl
  | none =>
    rw [step_of_read hp, busRead, if_neg (Nat.not_le.2 ho), if_neg (by simp [hr]), ha, readAnswer, ha]

/-! ## Writes -/

/-- An unsupported write takes the access and does nothing (R52). -/
theorem step_write_unsupported {s : State} {offset width : Nat} {v : Word} {rest : List HostEvent}
    (hr : s.inReset = false) (ho : offset < windowSize) (hu : width ≠ 4 ∨ offset % 4 ≠ 0)
    (hp : s.pending = .write offset width v :: rest) : step s = .next (s.setPending rest) := by
  rw [step_of_write hp, busWrite, if_neg (Nat.not_le.2 ho), if_neg (by simp [hr]), (accessedReg_eq_none_iff ho).2 hu]

/-- What a write inside the window does at an offset other than that of `CMD` (R32, R33, R36, R52). -/
theorem step_write_inside {s : State} {offset width : Nat} {v : Word} {rest : List HostEvent}
    (hr : s.inReset = false) (ho : offset < windowSize) (hp : s.pending = .write offset width v :: rest)
    (hc : offset ≠ 0x00) :
    (offset = 0x1C ∧ step s = .next ((s.setPending rest).writeRxLen v)) ∨
    (∃ k : Fin 4, offset = 0x20 + 4 * k.val ∧ step s = .next ((s.setPending rest).setRxWord k v)) ∨
    ((width = 4 → offset % 4 = 0 → offset < 0x1C ∨ 0x30 ≤ offset) ∧ step s = .next (s.setPending rest)) := by
  cases ha : accessedReg offset width with
  | none =>
    have hu := (accessedReg_eq_none_iff ho).1 ha
    exact .inr (.inr ⟨by omega, step_write_unsupported hr ho hu hp⟩)
  | some r =>
    obtain ⟨rfl, rfl⟩ := accessedReg_eq_some ha
    have hstep := step_write_reg r hr hp
    cases r with
    | cmd => exact absurd rfl hc
    | rxLen => exact .inl ⟨rfl, hstep⟩
    | rxBuf k => exact .inr (.inl ⟨k, rfl, hstep⟩)
    | _ => exact .inr (.inr ⟨by simp only [Reg.offset]; omega, hstep⟩)

/-- Settles O43: no register stands at such an access. -/
theorem unsupportedAccessesHaveNoEffect : Obligations.UnsupportedAccessesHaveNoEffect := by
  intro s offset width v rest hr ho hu
  refine ⟨step_write_unsupported hr ho hu, fun hp => ?_⟩
  rw [step_read_inside hr ho hp, readAnswer_unsupported s ho hu]
  rfl

/-! ## Byte order of the buffers -/

/-- Lane `j` of four neighbouring bytes packed is byte `j` of them (R53). -/
theorem lane_packWord_getElem {n : Nat} (b : Vector Byte n) (m j : Nat) (hm : m + 3 < n) (hj : j < 4) :
    lane (packWord b[m] b[m + 1] b[m + 2] b[m + 3]) j = b[m + j] := by
  obtain ⟨h0, h1, h2, h3⟩ := lane_packWord b[m] b[m + 1] b[m + 2] b[m + 3]
  interval_cases j
  · exact h0
  · exact h1
  · exact h2
  · exact h3

/-- Settles O44: reads pack the four bytes of a buffer word, and a write unpacks them. -/
theorem bufferPackingIsLittleEndian : Obligations.BufferPackingIsLittleEndian := by
  intro s j hj
  refine ⟨fun k => lane_packWord_getElem s.tx (4 * k.val) j (by omega) hj,
    fun k => lane_packWord_getElem s.rx (4 * k.val) j (by omega) hj, fun k v t h => ?_⟩
  cases h
  rw [State.setRxWord_getElem, if_pos (by omega), show (4 * k.val + j) % 4 = j by omega]
  rfl

/-! ## What has a side effect -/

/-- Two equal reads in a row answer the same (R56). -/
theorem read_twice {s : State} {offset width : Nat} {rest : List HostEvent} (hr : s.inReset = false)
    (ho : offset < windowSize) (hp : s.pending = .read offset width :: .read offset width :: rest) :
    core.run 2 s = .next ((s.setPending rest).setReply (readAnswer s offset width)) := by
  have hfirst := step_read_inside hr ho hp
  have hsecond := step_read_inside
    (s := (s.setPending (.read offset width :: rest)).setReply (readAnswer s offset width)) hr ho rfl
  rw [readAnswer_setPending_setReply] at hsecond
  rw [run_of_step 1 hfirst, run_one hsecond]
  rfl

/-- Settles O49: a read changes the reply alone, and a write stores a length, a buffer word or nothing. -/
theorem onlyWritesHaveSideEffects : Obligations.OnlyWritesHaveSideEffects := by
  refine ⟨fun s offset width rest hr ho hp => ⟨_, step_read_inside hr ho hp, read_twice hr ho hp⟩,
    fun s offset width v rest hr ho hp hc => ?_, fun s w rest hr hp => step_write_reg .cmd hr hp⟩
  rcases step_write_inside hr ho hp hc with ⟨rfl, hstep⟩ | ⟨k, rfl, hstep⟩ | ⟨hother, hstep⟩
  · refine ⟨_, hstep, ?_⟩
    rcases (s.setPending rest).writeRxLen_cases v with ⟨n, hn, he⟩ | ⟨hbig, he⟩ <;> rw [he]
    · exact ⟨rfl, fun h => absurd rfl h, fun _ => rfl, fun _ _ _ => hn, fun _ k _ => by omega⟩
    · exact ⟨rfl, fun _ => rfl, fun _ => rfl, fun _ _ _ => by omega, fun _ k _ => by omega⟩
  · refine ⟨_, hstep, rfl, fun _ => rfl, fun _ => by omega, fun _ _ _ => by omega, fun _ i hi => ?_⟩
    obtain rfl : k = i := by omega
    exact readReg_rxBuf_setRxWord k v (s.setPending rest)
  · exact ⟨_, hstep, rfl, fun _ => rfl, fun _ => rfl, fun _ _ => by omega, fun _ _ _ => by omega⟩

end Sys2Proof.Proofs

/-! # Proofs: command words and assembler lines (spec/30_encoding.md)

Decoding is read off `decode_eq`, an assembler line off the value of the word it encodes (`encode_crcByte` and its like).
`run_rxBufWrites` runs the accesses of `LOAD_RX` that come before its length. -/

namespace Sys2Proof.Proofs

open Sys2Proof Sys2Proof.Machine

/-! ## The write of `CMD` -/

/-- Settles O40: `CMD` is the register at offset 0, and its write is `exec` of the word decoded. -/
theorem stepRunsDecodedCommand : Obligations.StepRunsDecodedCommand := by
  rintro s w _ rest hr hp rfl
  exact step_write_reg .cmd hr hp

/-! ## Rows and illegal words -/

/-- Where both masks of two rows that match the same word look, the patterns agree. -/
theorem masks_and_xor_patterns_eq_zero {a b : OpRow} {w : Word} (ha : a.hits w = true) (hb : b.hits w = true) :
    a.mask &&& b.mask &&& (a.pattern ^^^ b.pattern) = 0 := by
  rw [← beq_iff_eq.1 ha, ← beq_iff_eq.1 hb]
  ext i
  simp only [BitVec.getElem_and, BitVec.getElem_xor, BitVec.ofNat_eq_ofNat, BitVec.getElem_zero]
  cases a.mask[i] <;> cases b.mask[i] <;> simp

/-- At most one row of the opcode map matches a word (R70). -/
theorem hits_length_le_one (w : Word) : (opTable.filter (fun r => r.hits w)).length ≤ 1 := by
  have hdiffer := opTable_rows_differ.filter (fun r => r.hits w)
  have hhits : ∀ r ∈ opTable.filter (fun r => r.hits w), r.hits w = true := fun r hr => (List.mem_filter.1 hr).2
  generalize opTable.filter (fun r => r.hits w) = rows at hdiffer hhits
  match rows with
  | [] => exact Nat.zero_le 1
  | [_] => exact Nat.le_refl 1
  | a :: b :: _ =>
    have hab := List.rel_of_pairwise_cons hdiffer List.mem_cons_self
    exact absurd (masks_and_xor_patterns_eq_zero (hhits a (by simp)) (hhits b (by simp))) hab

/-- No row stands for `BAD_COMMAND`. -/
theorem opRow_command_ne_badCommand (w : Word) : ∀ r ∈ opTable, r.command w ≠ .badCommand w := by
  simp [opTable]

/-- A word decodes to `BAD_COMMAND` exactly when no row matches it (R70, R75). -/
theorem decode_eq_badCommand_iff_no_hit (w : Word) :
    decode w = .badCommand w ↔ ∀ r ∈ opTable, r.hits w = false := by
  unfold decode
  cases h : opTable.find? (fun r => r.hits w) with
  | none => simpa using h
  | some r =>
    have hr := List.mem_of_find?_eq_some h
    have hhit : r.hits w = true := List.find?_some (p := fun r : OpRow => r.hits w) h
    exact iff_of_false (opRow_command_ne_badCommand w r hr) fun hno => by simp [hno r hr] at hhit

/-- A word decodes to `BAD_COMMAND` exactly when it is illegal (R74, R75). -/
theorem decode_eq_badCommand_iff_illegal (w : Word) : decode w = .badCommand w ↔ illegalWord w = true := by
  constructor <;> intro h
  · have hw := decode_wellFormed w
    rwa [h] at hw
  · simp only [illegalWord_iff, not_or] at h
    obtain ⟨h1, h2, h3, h4, h5, h6, h7, h8, h9, h10⟩ := h
    rw [decode_eq, if_neg h1, if_neg h2, if_neg h3, if_neg h4, if_neg h5, if_neg h6, if_neg h7, if_neg h8, if_neg h9,
      if_neg h10]

/-- Settles O4: a word matches no row, decodes to `BAD_COMMAND` and is illegal all at once. -/
theorem illegalWordsMatchNoRow : Obligations.IllegalWordsMatchNoRow := fun w =>
  ⟨hits_length_le_one w,
    (decode_eq_badCommand_iff_illegal w).symm.trans (decode_eq_badCommand_iff_no_hit w),
    (decode_eq_badCommand_iff_illegal w).symm⟩

/-- An illegal command writes the flags alone (R75). -/
theorem exec_badCommand (w : Word) (s : State) : exec (.badCommand w) s =
    .next { s with result := .badCommand, lastOp := BitVec.ofNat 8 (w.toNat % 256) } := by
  rw [← wordOp_toNat, BitVec.ofNat_toNat, BitVec.setWidth_eq]
  rfl

/-- Settles O33: an illegal word decodes to `BAD_COMMAND`, which writes the flags alone. -/
theorem illegalWordReportsBadCommand : Obligations.IllegalWordReportsBadCommand := by
  have hillegal (w : Word) (s : State) (h : illegalWord w = true) : exec (decode w) s =
      .next { s with result := .badCommand, lastOp := BitVec.ofNat 8 (w.toNat % 256) } := by
    rw [(decode_eq_badCommand_iff_illegal w).2 h, exec_badCommand]
  refine ⟨hillegal, exec_badCommand, fun s t hv h => ?_, fun s t h => ?_⟩
  · rw [hillegal 0x00000000 s (by decide)] at h
    cases h
    simp only [State.readReg, statusWord, hv]
    rfl
  · rw [hillegal 0x000000FF s (by decide)] at h
    cases h
    obtain ⟨hresult, -, -, hop, -⟩ := statusWordHasItsFields
      { s with result := .badCommand, lastOp := BitVec.ofNat 8 ((0x000000FF : Word).toNat % 256) }
    exact ⟨hresult, hop⟩

/-! ## Operands -/

theorem eq_wordLo_of_decode {w : Word} {d : Byte} (h : decode w = .crcByte d) : d = wordLo w := by
  rw [decode_eq] at h
  split_ifs at h
  cases h
  rfl

theorem eq_wordLo_wordHi_of_decode {w : Word} {lo hi : Byte} (h : decode w = .crcCheck lo hi) :
    lo = wordLo w ∧ hi = wordHi w := by
  rw [decode_eq] at h
  split_ifs at h
  cases h
  exact ⟨rfl, rfl⟩

theorem eq_wordArg_of_decode {w : Word} {r : BitVec 24} (h : decode w = .encBaud r) : r = wordArg w := by
  rw [decode_eq] at h
  split_ifs at h
  cases h
  rfl

/-- `EXP` has `HI` as its high byte (R72). -/
theorem expectedCrc_toNat (lo hi : Byte) : (expectedCrc lo hi).toNat = hi.toNat * 256 + lo.toNat := by
  rw [expectedCrc, BitVec.toNat_append, ← Nat.shiftLeft_add_eq_or_of_lt lo.isLt, Nat.shiftLeft_eq]

/-- Zero extension keeps the value of `RATE` (R72). -/
theorem rateOperand_toNat (r : BitVec 24) : (rateOperand r).toNat = r.toNat :=
  BitVec.toNat_setWidth_of_le (by decide)

/-- Settles O5: the decoder takes each operand from its field. -/
theorem operandsAreUnsignedFields : Obligations.OperandsAreUnsignedFields := by
  refine ⟨fun w d h => ?_, fun w lo hi h => ?_, fun w r h => ?_⟩
  · rw [eq_wordLo_of_decode h, wordLo_toNat]
  · obtain ⟨rfl, rfl⟩ := eq_wordLo_wordHi_of_decode h
    rw [expectedCrc_toNat, wordLo_toNat, wordHi_toNat]
    omega
  · rw [rateOperand_toNat, ← wordArg_toNat, eq_wordArg_of_decode h]
    exact ⟨rfl, (wordArg w).isLt⟩

/-! ## Assembler lines -/

/-- The word of `CRC_BYTE` as R81 writes it. -/
theorem encode_crcByte (b : Byte) : encode (.crcByte b) = BitVec.ofNat 32 (b.toNat <<< 8 ||| 0x02) := by
  have h : (encode (.crcByte b)).toNat = b.toNat <<< 8 ||| 0x02 := by
    change BitVec.toNat (w := 16 + 8 + 8) (0#16 ++ b ++ opCrcByte) = _
    rw [BitVec.toNat_append, BitVec.toNat_append, BitVec.toNat_ofNat, Nat.zero_mod, Nat.zero_shiftLeft, Nat.zero_or]
    rfl
  rw [← h, BitVec.ofNat_toNat, BitVec.setWidth_eq]

/-- The word of `CRC_CHECK` as R80 writes it. -/
theorem encode_crcCheck (lo hi : Byte) :
    encode (.crcCheck lo hi) = BitVec.ofNat 32 (hi.toNat <<< 16 ||| lo.toNat <<< 8 ||| 0x03) := by
  have h : (encode (.crcCheck lo hi)).toNat = hi.toNat <<< 16 ||| lo.toNat <<< 8 ||| 0x03 := by
    change BitVec.toNat (w := 8 + 8 + 8 + 8) (0#8 ++ hi ++ lo ++ opCrcCheck) = _
    rw [BitVec.toNat_append, BitVec.toNat_append, BitVec.toNat_append, BitVec.toNat_ofNat, Nat.zero_mod,
      Nat.zero_shiftLeft, Nat.zero_or, Nat.shiftLeft_or_distrib, ← Nat.shiftLeft_add]
    rfl
  rw [← h, BitVec.ofNat_toNat, BitVec.setWidth_eq]

/-- The word of `ENC_BAUD` as R80 writes it. -/
theorem encode_encBaud (r : BitVec 24) : encode (.encBaud r) = BitVec.ofNat 32 (r.toNat <<< 8 ||| 0x12) := by
  have h : (encode (.encBaud r)).toNat = r.toNat <<< 8 ||| 0x12 := by
    change BitVec.toNat (w := 24 + 8) (r ++ opEncBaud) = _
    rw [BitVec.toNat_append]
    rfl
  rw [← h, BitVec.ofNat_toNat, BitVec.setWidth_eq]

/-- A number in an operand's range is read as the operand (R80). -/
theorem operand_toNat {n : Nat} (b : BitVec n) : operand n b.toNat = some b := by
  rw [operand, if_pos b.isLt, BitVec.ofNat_toNat, BitVec.setWidth_eq]

/-- A number is an operand's value, or above every such value and an assembly error (R80). -/
theorem operand_cases (n v : Nat) :
    (∃ b : BitVec n, b.toNat = v ∧ operand n v = some b) ∨ (2 ^ n ≤ v ∧ operand n v = none) := by
  by_cases h : v < 2 ^ n
  · exact .inl ⟨BitVec.ofNat n v, by rw [BitVec.toNat_ofNat, Nat.mod_eq_of_lt h], if_pos h⟩
  · exact .inr ⟨Nat.le_of_not_lt h, if_neg h⟩

/-- Bytes written as numbers are read back as the bytes. -/
theorem byteOperands_toNat (bytes : List Byte) : byteOperands (bytes.map (fun b => b.toNat)) = some bytes := by
  induction bytes with
  | nil => rfl
  | cons b rest ih => rw [List.map_cons, byteOperands, operand_toNat, ih]

/-- One number above 0xFF spoils a list of byte operands. -/
theorem byteOperands_eq_none {values : List Nat} (h : ∃ v ∈ values, 0xFF < v) : byteOperands values = none := by
  induction values with
  | nil => simp at h
  | cons v rest ih =>
    rw [byteOperands]
    rcases operand_cases 8 v with ⟨b, rfl, ho⟩ | ⟨-, ho⟩
    · obtain ⟨x, hx, hbig⟩ := h
      rcases List.mem_cons.1 hx with rfl | hx
      · have := b.isLt
        omega
      · rw [ho, ih ⟨x, hx, hbig⟩]
    · rw [ho]

theorem expandLine_crcByte (d : Nat) : expandLine (.crcByte d) =
    if d ≤ 0xFF then some [.write 0x00 4 (BitVec.ofNat 32 (d <<< 8 ||| 0x02))] else none := by
  rcases operand_cases 8 d with ⟨b, rfl, ho⟩ | ⟨hd, ho⟩
  · rw [expandLine, ho, if_pos (Nat.le_of_lt_succ b.isLt), ← encode_crcByte]
    rfl
  · rw [expandLine, ho, if_neg (Nat.not_le.2 hd)]
    rfl

theorem expandLine_crcCheck (lo hi : Nat) : expandLine (.crcCheck lo hi) =
    if lo ≤ 0xFF ∧ hi ≤ 0xFF then some [.write 0x00 4 (BitVec.ofNat 32 (hi <<< 16 ||| lo <<< 8 ||| 0x03))]
    else none := by
  rcases operand_cases 8 lo with ⟨l, rfl, hl⟩ | ⟨hlo, hl⟩
  · rcases operand_cases 8 hi with ⟨h, rfl, hh⟩ | ⟨hhi, hh⟩
    · rw [expandLine, hl, hh, if_pos ⟨Nat.le_of_lt_succ l.isLt, Nat.le_of_lt_succ h.isLt⟩, ← encode_crcCheck]
      rfl
    · rw [expandLine, hl, hh, if_neg fun h => Nat.not_le.2 hhi h.2]
  · rw [expandLine, hl, if_neg fun h => Nat.not_le.2 hlo h.1]

theorem expandLine_encBaud (rate : Nat) : expandLine (.encBaud rate) =
    if rate ≤ 0xFFFFFF then some [.write 0x00 4 (BitVec.ofNat 32 (rate <<< 8 ||| 0x12))] else none := by
  rcases operand_cases 24 rate with ⟨r, rfl, ho⟩ | ⟨hr, ho⟩
  · rw [expandLine, ho, if_pos (Nat.le_of_lt_succ r.isLt), ← encode_encBaud]
    rfl
  · rw [expandLine, ho, if_neg (Nat.not_le.2 hr)]
    rfl

theorem expandLine_wr (r : Reg) (v : Nat) : expandLine (.wr r v) =
    if v < 2 ^ 32 then some [.write r.offset 4 (BitVec.ofNat 32 v)] else none := by
  rw [expandLine, operand]
  split <;> rfl

theorem expandLine_crcSeq {bytes : List Byte} (h : bytes ≠ []) :
    expandLine (.crcSeq (bytes.map (fun b => b.toNat))) = some (.write 0x00 4 0x00000001 ::
      bytes.map (fun b => .write 0x00 4 (BitVec.ofNat 32 (b.toNat <<< 8 ||| 0x02)))) := by
  rw [expandLine, if_neg (by simpa using h), byteOperands_toNat, Option.map_some]
  simp only [cmdWrite, encode_crcByte]
  rfl

theorem expandLine_loadRx {bytes : List Byte} (h : bytes.length ≤ 16) :
    expandLine (.loadRx (bytes.map (fun b => b.toNat))) = some (loadRxEvents bytes) := by
  rw [expandLine, if_pos (by rwa [List.length_map]), byteOperands_toNat, Option.map_some]

/-- Settles O52: a command line is the write of the command's word, the other lines are their definitions. -/
theorem mnemonicsExpandToCommandWrites : Obligations.MnemonicsExpandToCommandWrites := by
  refine ⟨fun _ => rfl, expandLine_wr, expandLine_crcByte, expandLine_crcCheck, expandLine_encBaud, rfl, rfl, rfl, rfl,
    rfl, rfl, rfl, fun _ => expandLine_crcSeq, fun _ => expandLine_loadRx, fun values h => ⟨?_, ?_⟩⟩
  · rw [expandLine, byteOperands_eq_none h]
    split <;> rfl
  · rw [expandLine, byteOperands_eq_none h]
    split <;> rfl

/-! ## The accesses of `LOAD_RX`, taken -/

/-- Lane `j` of the word for `RXBUF<k>` is byte `4k + j` of the frame (R53, R81). -/
theorem lane_loadRxWord (bytes : List Byte) (k j : Nat) (hj : j < 4) :
    lane (loadRxWord bytes k) j = bytes.getD (4 * k + j) 0x00 := by
  obtain ⟨h0, h1, h2, h3⟩ := lane_packWord (bytes.getD (4 * k) 0) (bytes.getD (4 * k + 1) 0)
    (bytes.getD (4 * k + 2) 0) (bytes.getD (4 * k + 3) 0)
  interval_cases j
  · exact h0
  · exact h1
  · exact h2
  · exact h3

/-- Writes of the first `n` words of `RXBUF`, taken in order, put their lanes into `RX` and leave the rest. -/
theorem run_rxBufWrites (word : Nat → Word) (n : Nat) (hn : n ≤ 4) :
    ∀ (s : State) (rest : List HostEvent), s.inReset = false →
      s.pending = (List.range n).map (fun k => .write (0x20 + 4 * k) 4 (word k)) ++ rest →
      ∃ rx, core.run n s = .next { s with pending := rest, rx := rx } ∧
        ∀ i, (h : i < 16) → rx[i] = if i < 4 * n then lane (word (i / 4)) (i % 4) else s.rx[i] := by
  induction n with
  | zero =>
    intro s rest _ hp
    exact ⟨s.rx, by rw [← show s.pending = rest from hp]; rfl, fun i _ => by simp⟩
  | succ n ih =>
    intro s rest hr hp
    rw [List.range_succ, List.map_append, List.append_assoc] at hp
    obtain ⟨rx, hrun, hrx⟩ := ih (by omega) s _ hr hp
    have hstep := step_write_reg
      (s := { s with pending := .write (0x20 + 4 * n) 4 (word n) :: rest, rx := rx }) (.rxBuf ⟨n, by omega⟩) hr rfl
    refine ⟨(State.setRxWord ⟨n, by omega⟩ (word n) { s with rx := rx }).rx,
      (run_add_of_next core n 1 _ _ hrun).trans (run_one hstep), fun i h => ?_⟩
    rw [State.setRxWord_getElem _ _ _ i h]
    by_cases hi : i / 4 = n
    · rw [if_pos hi, if_pos (by omega), hi]
    · rw [if_neg hi]
      refine (hrx i h).trans ?_
      by_cases hlt : i < 4 * n
      · rw [if_pos hlt, if_pos (by omega)]
      · rw [if_neg hlt, if_neg (by omega)]

/-- The accesses of `LOAD_RX`, taken: the bytes of the words written are the frame's, padded with 0x00 (R81). -/
theorem run_loadRxEvents {bytes : List Byte} {s : State} (hlen : bytes.length ≤ 16) (hr : s.inReset = false)
    (hp : s.pending = loadRxEvents bytes) :
    ∃ rx, ∃ n : Fin 17, core.run ((bytes.length + 3) / 4 + 1) s = .next { s with pending := [], rx := rx, rxLen := n } ∧
      n.val = bytes.length ∧
      ∀ i, (h : i < 16) → rx[i] = if i < (bytes.length + 3) / 4 * 4 then bytes.getD i 0x00 else s.rx[i] := by
  obtain ⟨rx, hrun, hrx⟩ := run_rxBufWrites (loadRxWord bytes) ((bytes.length + 3) / 4) (by omega) s _ hr hp
  have hv : (BitVec.ofNat 32 bytes.length).toNat = bytes.length := by
    rw [BitVec.toNat_ofNat, Nat.mod_eq_of_lt (by omega)]
  obtain ⟨n, hn, -, hstep⟩ := (rxLenWriteIsBounded.1
    { s with pending := [.write 0x1C 4 (BitVec.ofNat 32 bytes.length)], rx := rx } _ [] hr rfl).2 (by omega)
  refine ⟨rx, n, (run_add_of_next core _ 1 _ _ hrun).trans (run_one hstep), hn.trans hv, fun i h => ?_⟩
  rw [hrx i h, lane_loadRxWord _ _ _ (by omega), Nat.div_add_mod, Nat.mul_comm]

/-- Settles O53: below `RXLEN` the bytes are the frame's, above it they are padding or what they were. -/
theorem loadRxLoadsTheFrame : Obligations.LoadRxLoadsTheFrame := by
  intro bytes s hlen hr hp
  obtain ⟨rx, n, hrun, hn, hrx⟩ := run_loadRxEvents hlen hr hp
  refine ⟨_, hrun, List.ext_getElem (by simp [hn, hlen]) fun i _ hi => ?_, hn, fun i h hi => ?_, rfl⟩
  · rw [List.getElem_take, Vector.getElem_toList, hrx i (by omega), if_pos (by omega), List.getD_eq_getElem _ _ hi]
  · rw [hrx i h, List.getD_eq_default _ _ hi]

end Sys2Proof.Proofs

/-! # Proofs: the CRC function and the CRC commands (spec/40_crc.md)

Two facts carry the properties of R108 and R109: an accumulator fed its own two bytes, low byte first, ends at 0
(`foldl_crcStep_own_bytes`), and a byte of a sequence can be read back from the sequence's CRC when the other bytes are
known (`crc16_set_injective`). By the first, `DEC_READ`'s comparison of the trailing bytes says that the whole received
frame has CRC 0 (`trailingCrcOk_iff_crc16_received`), so the second applies to every byte of it alike. -/

namespace Sys2Proof.Proofs

open Sys2Proof Sys2Proof.Machine

/-! ## One byte and a sequence (R101 to R103) -/

/-- Settles O6: `crcShifts 8` is the eighth iterate of `crcShift`. -/
theorem crcStepIsEightShifts : Obligations.CrcStepIsEightShifts :=
  ⟨fun _ _ => rfl, by decide, by decide, by decide, by decide, by decide⟩

/-- A sequence delivered in two pieces: the second goes on from the accumulator of the first (R103). -/
theorem crc16_append (a b : List Byte) : crc16 (a ++ b) = b.foldl crcStep (crc16 a) :=
  List.foldl_append

/-- The CRC of the read request's header and payload (R102). -/
theorem crc16_readRequest : crc16 [0x01, 0x04, 0x00, 0x37, 0x00, 0x02] = 0x05C0 := by decide +kernel

/-- A frame is its payload and then the CRC, low byte first (R120). -/
theorem frame_toList (p : Vector Byte 6) :
    (frame p).toList = p.toList ++ [halfLo (crc16 p.toList), halfHi (crc16 p.toList)] := by
  simp [frame, Vector.toList_push]

/-- Settles O7: `crc16` is a fold from the seed. -/
theorem crcStartsAtSeedAndTakesBytesInOrder : Obligations.CrcStartsAtSeedAndTakesBytesInOrder := by
  refine ⟨rfl, fun a b => crc16_append a [b], crc16_readRequest, by decide +kernel, fun p => ?_⟩
  rw [frame_toList, List.drop_left' p.length_toList]
  rfl

/-- Settles O8: the bytes 01 and 02 show that the order matters and that a CRC fed as data does not stand for its
sequence. -/
theorem crcOfConcatenationContinues : Obligations.CrcOfConcatenationContinues :=
  ⟨crc16_append, ⟨[0x01], [0x02], by decide +kernel⟩, ⟨[0x01], [0x02], by decide +kernel⟩⟩

/-- Refutes O11: 0xC001 is a second fixed point of the byte 0x00 (log entry 19). -/
theorem not_zeroByteChangesEveryNonzeroCrc : ¬ Obligations.ZeroByteChangesEveryNonzeroCrc := by
  intro h
  exact h 0xC001 (by decide) (by decide)

/-! ## The residue (R108) -/

@[simp] theorem halfLo_expectedCrc (lo hi : Byte) : halfLo (expectedCrc lo hi) = lo :=
  BitVec.extractLsb'_append_eq_right

@[simp] theorem halfHi_expectedCrc (lo hi : Byte) : halfHi (expectedCrc lo hi) = hi :=
  BitVec.extractLsb'_append_eq_left

/-- An accumulator fed its own two bytes, low byte first, is shifted out byte by byte. -/
theorem foldl_crcStep_own_bytes (c : Half) : [halfLo c, halfHi c].foldl crcStep c = 0 := by
  have hhi : halfHi c = halfLo (c >>> 8) := by
    ext i
    simp [halfHi, halfLo]
  calc [halfLo c, halfHi c].foldl crcStep c
      = crcStep (crcStep c (halfLo c)) (halfHi c) := rfl
    _ = c >>> 8 >>> 8 := by rw [crcStep_own_low_byte, hhi, crcStep_own_low_byte]
    _ = 0 := by rw [← BitVec.shiftRight_add]; exact BitVec.ushiftRight_eq_zero (Nat.le_refl 16)

/-- Settles O9: the sequence leaves its CRC in the accumulator, and the two bytes shift that out. -/
theorem crcResidueIsZero : Obligations.CrcResidueIsZero := fun p =>
  (crc16_append p _).trans (foldl_crcStep_own_bytes (crc16 p))

/-- The residue is 0 only for the sequence's own CRC: different accumulators stay different through the two bytes. -/
theorem crc16_append_bytes_eq_zero_iff (p : List Byte) (lo hi : Byte) :
    crc16 (p ++ [lo, hi]) = 0 ↔ crc16 p = expectedCrc lo hi := by
  have hown := foldl_crcStep_own_bytes (expectedCrc lo hi)
  rw [halfLo_expectedCrc, halfHi_expectedCrc] at hown
  rw [crc16_append, ← hown]
  exact (foldl_crcStep_injective [lo, hi]).eq_iff

/-- Check (c) of R141 says that the whole received frame has CRC 0. -/
theorem trailingCrcOk_iff_crc16_received {s : State} (h : 2 ≤ s.rxLen.val) :
    trailingCrcOk s = true ↔ crc16 s.received = 0 := by
  have hsplit := s.received_split h
  rw [trailingCrcOk_iff s _ _ _ hsplit, hsplit, crc16_append_bytes_eq_zero_iff]

/-! ## Changes of one byte (R109) -/

/-- With the other bytes fixed, different bytes at one place give different CRCs. -/
theorem crc16_set_injective {p : List Byte} {i : Nat} (h : i < p.length) :
    Function.Injective (fun b => crc16 (p.set i b)) := by
  intro a b hab
  simp only [List.set_eq_take_append_cons_drop, if_pos h, crc16_append] at hab
  exact crcStep_right_injective _ (foldl_crcStep_injective _ hab)

theorem crc16_set_ne {p : List Byte} {i : Nat} {b : Byte} (h : i < p.length) (hb : b ≠ p[i]) :
    crc16 (p.set i b) ≠ crc16 p := fun he =>
  hb (crc16_set_injective h (he.trans (congrArg crc16 (List.set_getElem_self h).symm)))

/-- A byte with one bit changed is another byte. -/
theorem flipped_ne {k : Nat} (hk : k < 8) (b : Byte) : b ^^^ (1#8 <<< k) ≠ b := by
  intro h
  have hbit := congrArg (fun x => BitVec.getLsbD x k) h
  simp [hk] at hbit

/-- The three checks of R141, all passed. -/
theorem readResponseResult_eq_ok_iff (s : State) :
    readResponseResult s = .ok ↔ readRespLen ≤ s.rxLen.val ∧ readHeaderOk s = true ∧ trailingCrcOk s = true := by
  unfold readResponseResult
  split_ifs with hlen hhdr hcrc
  · simp [hlen]
  · simp [hhdr]
  · simp [hcrc]
  · simp [Nat.not_lt.1 hlen, hhdr, hcrc]

/-- `DEC_READ` reports the result of the checks (R141, R143). -/
theorem result_of_exec_decRead {s t : State} (h : exec .decRead s = .next t) : t.result = readResponseResult s := by
  by_cases hok : readResponseResult s = .ok
  · cases h.symm.trans (execDecRead_accepted hok)
    exact hok.symm
  · cases h.symm.trans (execDecRead_rejected hok)
    rfl

section
variable {s : State} {i : Nat} {b : Byte} (hi : i < 16)

theorem received_setRx_set : (s.setRx (s.rx.set i b hi)).received = s.received.set i b := by
  rw [State.received, State.rxPrefix, State.setRx_rx, Vector.toList_set, List.take_set]
  rfl

/-- A changed header byte fails check (b). -/
theorem readHeaderOk_set_header (hok : readHeaderOk s = true) (h3 : i < 3) (hb : b ≠ s.rx[i]) :
    readHeaderOk (s.setRx (s.rx.set i b hi)) = false := by
  obtain ⟨h0, h1, h2⟩ := (readHeaderOk_iff s).1 hok
  rw [← Bool.not_eq_true, readHeaderOk_iff]
  rintro ⟨g0, g1, g2⟩
  simp only [State.setRx_rx] at g0 g1 g2
  interval_cases i
  · exact hb (by simpa [h0] using g0)
  · exact hb (by simpa [h1] using g1)
  · exact hb (by simpa [h2] using g2)

/-- Check (b) reads the first three bytes alone. -/
theorem readHeaderOk_set_later (h3 : 3 ≤ i) : readHeaderOk (s.setRx (s.rx.set i b hi)) = readHeaderOk s := by
  have hne (j : Nat) (hj : j < 3) : (s.rx.set i b hi)[j] = s.rx[j] := Vector.getElem_set_ne _ _ (by omega)
  rw [Bool.eq_iff_iff, readHeaderOk_iff, readHeaderOk_iff, State.setRx_rx, hne 0 (by decide), hne 1 (by decide),
    hne 2 (by decide)]

/-- A received frame that passes check (c) fails it with any one byte changed, trailing bytes included. -/
theorem trailingCrcOk_set (hlen : 2 ≤ s.rxLen.val) (hok : trailingCrcOk s = true) (hlt : i < s.rxLen.val)
    (hb : b ≠ s.rx[i]) : trailingCrcOk (s.setRx (s.rx.set i b hi)) = false := by
  have hzero := (trailingCrcOk_iff_crc16_received hlen).1 hok
  have hlt' : i < s.received.length := by rwa [s.received_length]
  have hbyte : s.received[i] = s.rx[i] := (s.rxPrefix_getElem _ _ hlt').trans (s.rxByte_eq i hi)
  have hchanged := trailingCrcOk_iff_crc16_received (s := s.setRx (s.rx.set i b hi)) hlen
  rw [received_setRx_set, ← hzero] at hchanged
  exact Bool.eq_false_iff.2 fun h => crc16_set_ne hlt' (hbyte ▸ hb) (hchanged.1 h)

/-- An accepted read response with one byte changed: bytes 0 to 2 fail the header check, every later byte the CRC check
(spec/90_conflicts.md C1). -/
theorem readResponseResult_set (hok : readResponseResult s = .ok) (hlt : i < s.rxLen.val) (hb : b ≠ s.rx[i]) :
    readResponseResult (s.setRx (s.rx.set i b hi)) = if i < 3 then .malformed else .checksumMismatch := by
  obtain ⟨hlen, hhdr, hcrc⟩ := (readResponseResult_eq_ok_iff s).1 hok
  rw [readResponseResult, State.setRx_rxLen, if_neg (Nat.not_lt.2 hlen)]
  by_cases h3 : i < 3
  · rw [if_pos (readHeaderOk_set_header hi hhdr h3 hb), if_pos h3]
  · have hhdr' := (readHeaderOk_set_later (b := b) hi (Nat.le_of_not_lt h3)).trans hhdr
    have hcrc' := trailingCrcOk_set hi (Nat.le_trans (by decide) hlen) hcrc hlt hb
    rw [if_neg (by simp [hhdr']), if_pos hcrc', if_neg h3]

end

/-- Settles O10: a flipped bit is a changed byte, of the sequence, of its CRC or of the received frame. -/
theorem singleBitChangesAreDetected : Obligations.SingleBitChangesAreDetected := by
  refine ⟨fun p lo hi hcrc k hk => ⟨fun i h => ?_, ?_, ?_⟩, fun s t hexec hok k hk i hi hlt => ?_⟩
  · rw [← hcrc]
    exact crc16_set_ne h (flipped_ne hk _)
  · rw [hcrc]
    exact fun he => flipped_ne hk lo ((BitVec.append_right_inj hi).1 he).symm
  · rw [hcrc]
    exact fun he => flipped_ne hk hi ((BitVec.append_left_inj lo).1 he).symm
  · have hres := readResponseResult_set hi (result_of_exec_decRead hexec ▸ hok) hlt (flipped_ne hk s.rx[i])
    have hne : readResponseResult (s.setRx (s.rx.set i (s.rx[i] ^^^ (1#8 <<< k)))) ≠ .ok := by
      rw [hres]
      split_ifs <;> decide
    rw [← hres]
    exact execDecRead_rejected hne

/-! ## The commands (R104 to R107) -/

/-- An illegal word reports its OP and does nothing else (R75). -/
theorem exec_decode_illegal {w : Word} {op : Nat} (hop : w.toNat % 256 = op) (h : illegalWord w = true) (s : State) :
    exec (decode w) s = .next { s with result := .badCommand, lastOp := BitVec.ofNat 8 op } := by
  rw [illegalWordReportsBadCommand.1 w s h, hop]

/-- Settles O12: the accumulator's new value does not depend on the old one. -/
theorem crcInitSeedsAccumulator : Obligations.CrcInitSeedsAccumulator := by
  refine ⟨by decide, fun _ => rfl, fun w hop hres => exec_decode_illegal hop ?_, fun s t h => ?_, rfl,
    fun s _ hv => ⟨{ s with crc := 0xFFFF, result := .ok, lastOp := 0x01 }, rfl, rfl, ?_⟩⟩
  · rw [illegalWord_iff]
    omega
  · cases h
    rfl
  · simp only [State.readReg, statusWord, hv]
    rfl

theorem decode_crcByte_word (d : Byte) : decode (BitVec.ofNat 32 (d.toNat * 256 + 0x02)) = .crcByte d := by
  have hd := d.isLt
  have hw : (BitVec.ofNat 32 (d.toNat * 256 + 0x02)).toNat = d.toNat * 256 + 0x02 :=
    Nat.mod_eq_of_lt (by omega)
  have hlo : wordLo (BitVec.ofNat 32 (d.toNat * 256 + 0x02)) = d :=
    BitVec.eq_of_toNat_eq (by rw [wordLo_toNat, hw]; omega)
  rw [decode_eq, hw, if_neg (by omega), if_pos (by omega), hlo]

/-- Settles O13: the word's only field is the byte, and 0x102 is that word for 0x01. -/
theorem crcByteAccumulatesOneByte : Obligations.CrcByteAccumulatesOneByte := by
  refine ⟨decode_crcByte_word, fun _ _ => rfl, fun w hop hres => exec_decode_illegal hop ?_, fun s hc => ?_⟩
  · rw [illegalWord_iff]
    omega
  · refine ⟨_, congrArg (fun i => exec i s) (decode_crcByte_word 0x01), ?_⟩
    change crcStep s.crc 0x01 = 0x807E
    rw [hc]
    decide

theorem decode_crcCheck_word (lo hi : Byte) :
    decode (BitVec.ofNat 32 (hi.toNat * 65536 + lo.toNat * 256 + 0x03)) = .crcCheck lo hi := by
  have hl := lo.isLt
  have hh := hi.isLt
  have hw : (BitVec.ofNat 32 (hi.toNat * 65536 + lo.toNat * 256 + 0x03)).toNat =
      hi.toNat * 65536 + lo.toNat * 256 + 0x03 := Nat.mod_eq_of_lt (by omega)
  have hlo : wordLo (BitVec.ofNat 32 (hi.toNat * 65536 + lo.toNat * 256 + 0x03)) = lo :=
    BitVec.eq_of_toNat_eq (by rw [wordLo_toNat, hw]; omega)
  have hhi : wordHi (BitVec.ofNat 32 (hi.toNat * 65536 + lo.toNat * 256 + 0x03)) = hi :=
    BitVec.eq_of_toNat_eq (by rw [wordHi_toNat, hw]; omega)
  rw [decode_eq, hw, if_neg (by omega), if_neg (by omega), if_pos (by omega), hlo, hhi]

/-- Settles O14: the comparison is `exec_crcCheck`. -/
theorem crcCheckComparesAccumulator : Obligations.CrcCheckComparesAccumulator := by
  refine ⟨decode_crcCheck_word, exec_crcCheck, fun w hop hres => exec_decode_illegal hop ?_, halfLo_expectedCrc,
    fun s hc => ?_⟩
  · rw [illegalWord_iff]
    omega
  · have heq : s.crc = expectedCrc 0xC0 0x05 := hc.trans crc16_readRequest
    refine ⟨heq, ?_, ?_⟩
    · rw [show decode 0x0005C003 = .crcCheck 0xC0 0x05 from decode_crcCheck_word 0xC0 0x05, exec_crcCheck,
        if_pos heq]
      rfl
    · rw [show decode 0x00C00503 = .crcCheck 0x05 0xC0 from decode_crcCheck_word 0x05 0xC0, exec_crcCheck,
        if_neg (by rw [heq]; decide)]
      rfl

/-- `CRC_RX` as an equation (R107). -/
theorem exec_crcRx {s : State} {v : Half} (h : crc16 s.received = v) :
    exec .crcRx s = .next { s with crc := v, result := .ok, lastOp := 0x04 } := by
  rw [← h]
  rfl

/-- Settles O15: what the received frame is in each case, and its CRC. -/
theorem crcRxCoversReceivedFrame : Obligations.CrcRxCoversReceivedFrame := by
  refine ⟨by decide, fun s => exec_crcRx rfl, fun s h => exec_crcRx ?_, fun s h => exec_crcRx ?_,
    fun s p lo hi h hcrc => exec_crcRx ?_, fun s h => exec_crcRx ?_⟩
  · rw [State.received, h]
    rfl
  · rw [State.received, h, State.rxPrefix, List.take_of_length_le (by simp)]
  · exact (congrArg crc16 h).trans ((crc16_append_bytes_eq_zero_iff p lo hi).2 hcrc)
  · exact (congrArg crc16 h).trans (by decide +kernel)

end Sys2Proof.Proofs

/-! # Proofs: the encoder commands (spec/41_encode.md)

`requestPayload` names the six bytes a command sends, a function of the command alone. A command with a payload builds
its frame from every state (`exec_of_requestPayload`); the only encoder command without one is `ENC_BAUD` at a rate
outside the candidate set (`exec_encBaud_rejected`). The statements follow from these two facts. -/

namespace Sys2Proof.Proofs

open Sys2Proof Sys2Proof.Machine

/-! ## Frames and payloads (R120, R121) -/

/-- Settles O17: the two halves are the CRC's bit fields by definition. -/
theorem frameAppendsCrcLowByteFirst : Obligations.FrameAppendsCrcLowByteFirst := frame_toList

/-- The six bytes `P` whose frame a command builds, if it builds one (R122, R123, R125). -/
def requestPayload : Instr → Option (Vector Byte 6)
  | .encRead => some (request fcRead regValue readCount)
  | .encZero => some (request fcWrite regZero zeroValue)
  | .encBaud rate => (rateCode (rateOperand rate)).map (request fcWrite regBaud)
  | _ => none

/-- A command with a payload succeeds from every state and writes `TX`, `TXLEN` and the flags alone (R121). -/
theorem exec_of_requestPayload {i : Instr} {p : Vector Byte 6} (h : requestPayload i = some p) (s : State) :
    exec i s = .next { s with tx := frame p, txLen := 8, result := .ok, lastOp := i.op } := by
  cases i with
  | encRead | encZero =>
    cases h
    rfl
  | encBaud rate =>
    obtain ⟨code, hcode, rfl⟩ := Option.map_eq_some_iff.1 h
    simp only [exec, execEncBaud, hcode]
    rfl
  | _ => cases h

/-- A rate without a code clears `TXLEN` and leaves `TX` (R125). -/
theorem exec_encBaud_rejected {rate : BitVec 24} (h : rateCode (rateOperand rate) = none) (s : State) :
    exec (.encBaud rate) s = .next { s with txLen := 0, result := .unsupportedBaud, lastOp := 0x12 } := by
  simp only [exec, execEncBaud, h]
  rfl

/-- An encoder command that reports `OK` has a payload. -/
theorem exists_requestPayload_of_ok {i : Instr} {s t : State}
    (hi : i = .encRead ∨ i = .encZero ∨ ∃ rate, i = .encBaud rate) (h : exec i s = .next t) (hok : t.result = .ok) :
    ∃ p, requestPayload i = some p := by
  rcases hi with rfl | rfl | ⟨rate, rfl⟩
  · exact ⟨_, rfl⟩
  · exact ⟨_, rfl⟩
  · cases hcode : rateCode (rateOperand rate) with
    | some code => exact ⟨_, congrArg (Option.map _) hcode⟩
    | none =>
      cases h.symm.trans (exec_encBaud_rejected hcode s)
      cases hok

/-- Settles O22: the payload is the command's own, so the same frame is built from every state. -/
theorem encoderDependsOnCommandAlone : Obligations.EncoderDependsOnCommandAlone := by
  intro i s t hi h hok
  obtain ⟨p, hp⟩ := exists_requestPayload_of_ok hi h hok
  cases h.symm.trans (exec_of_requestPayload hp s)
  exact ⟨⟨p, rfl⟩, exec_of_requestPayload hp⟩

/-- The eight bytes of `TX` as the bus reads them (R31, R53). -/
theorem readReg_txBuf_of_tx {s : State} {b0 b1 b2 b3 b4 b5 b6 b7 : Byte}
    (h : s.tx = #v[b0, b1, b2, b3, b4, b5, b6, b7]) :
    s.readReg (.txBuf 0) = packWord b0 b1 b2 b3 ∧ s.readReg (.txBuf 1) = packWord b4 b5 b6 b7 := by
  simp only [State.readReg, State.txWord, h]
  exact ⟨rfl, rfl⟩

/-! ## `ENC_READ` and `ENC_ZERO` (R122, R123) -/

theorem frame_readRequest : frame (request fcRead regValue readCount) =
    #v[0x01, 0x04, 0x00, 0x37, 0x00, 0x02, 0xC0, 0x05] := by decide +kernel

theorem frame_zeroRequest : frame (request fcWrite regZero zeroValue) =
    #v[0x01, 0x06, 0x00, 0x36, 0x00, 0x01, 0xA8, 0x04] := by decide +kernel

theorem exec_encRead (s : State) : exec .encRead s = .next { s with
    tx := #v[0x01, 0x04, 0x00, 0x37, 0x00, 0x02, 0xC0, 0x05], txLen := 8, result := .ok, lastOp := 0x10 } := by
  rw [exec_of_requestPayload rfl, frame_readRequest]
  rfl

theorem exec_encZero (s : State) : exec .encZero s = .next { s with
    tx := #v[0x01, 0x06, 0x00, 0x36, 0x00, 0x01, 0xA8, 0x04], txLen := 8, result := .ok, lastOp := 0x11 } := by
  rw [exec_of_requestPayload rfl, frame_zeroRequest]
  rfl

/-- Settles O18: the effect is `exec_encRead`, in which the old `TX`, `TXLEN` and flags do not occur. -/
theorem encReadBuildsReadRequest : Obligations.EncReadBuildsReadRequest := by
  refine ⟨by decide, exec_encRead, fun w hop hres => exec_decode_illegal hop ?_, fun s t h => ?_⟩
  · rw [illegalWord_iff]
    omega
  · have ht := Host.Outcome.next.inj (h.symm.trans (exec_encRead s))
    obtain ⟨hbuf0, hbuf1⟩ := readReg_txBuf_of_tx (congrArg State.tx ht)
    refine ⟨?_, hbuf0, hbuf1, ?_⟩
    · rw [ht]
      exact exec_encRead _
    · rw [ht]
      rfl

/-- Settles O19: the effect is `exec_encZero`. -/
theorem encZeroBuildsZeroRequest : Obligations.EncZeroBuildsZeroRequest := by
  refine ⟨by decide, exec_encZero, fun w hop hres => exec_decode_illegal hop ?_, fun s t h => ?_⟩
  · rw [illegalWord_iff]
    omega
  · exact readReg_txBuf_of_tx (congrArg State.tx (Host.Outcome.next.inj (h.symm.trans (exec_encZero s))))

/-! ## Rate codes and `ENC_BAUD` (R124, R125) -/

/-- Settles O20: a rate is in the table or differs from each of its five rates. -/
theorem rateCodesAreExactlyTheTable : Obligations.RateCodesAreExactlyTheTable := by
  intro rate
  rcases rateCode_cases rate with ⟨hout, hcode⟩ | ⟨e, he, rfl, hcode⟩
  · have hne (c : Word) (hc : c.toNat ∈ [9600, 19200, 38400, 57600, 115200]) : rate ≠ c := by
      rintro rfl
      exact hout hc
    rw [hcode, if_neg (hne 9600 (by decide)), if_neg (hne 19200 (by decide)), if_neg (hne 38400 (by decide)),
      if_neg (hne 57600 (by decide)), if_neg (hne 115200 (by decide))]
  · rw [hcode]
    simp only [rateTable, List.mem_cons, List.not_mem_nil, or_false] at he
    rcases he with rfl | rfl | rfl | rfl | rfl <;> rfl

/-- A rate outside the candidate set has no code (R124). -/
theorem rateCode_eq_none {rate : Word} (h : rate.toNat ∉ [9600, 19200, 38400, 57600, 115200]) :
    rateCode rate = none := by
  have hcandidates : ∀ e ∈ rateTable, e.1.toNat ∈ [9600, 19200, 38400, 57600, 115200] := by simp [rateTable]
  rcases rateCode_cases rate with ⟨-, hcode⟩ | ⟨e, he, rfl, -⟩
  · exact hcode
  · exact absurd (hcandidates e he) h

/-- The request frames of the five candidate rates (spec/95_test_vectors.md section 1.2). -/
theorem frame_baudRequests : ∀ e ∈ [
    (9600#24, (#v[0x01, 0x06, 0x00, 0x31, 0x00, 0x96, 0x58, 0x6B] : Vector Byte 8)),
    (19200#24, #v[0x01, 0x06, 0x00, 0x31, 0x01, 0x92, 0x58, 0x38]),
    (38400#24, #v[0x01, 0x06, 0x00, 0x31, 0x03, 0x84, 0xD8, 0x96]),
    (57600#24, #v[0x01, 0x06, 0x00, 0x31, 0x05, 0x76, 0x5A, 0xB3]),
    (115200#24, #v[0x01, 0x06, 0x00, 0x31, 0x11, 0x52, 0x55, 0xA8])],
    (requestPayload (.encBaud e.1)).map frame = some e.2 := by decide +kernel

theorem decode_encBaud_word (rate : BitVec 24) :
    decode (BitVec.ofNat 32 (rate.toNat * 256 + 0x12)) = .encBaud rate := by
  have hr := rate.isLt
  have hw : (BitVec.ofNat 32 (rate.toNat * 256 + 0x12)).toNat = rate.toNat * 256 + 0x12 :=
    Nat.mod_eq_of_lt (by omega)
  have harg : wordArg (BitVec.ofNat 32 (rate.toNat * 256 + 0x12)) = rate :=
    BitVec.eq_of_toNat_eq (by rw [wordArg_toNat, hw]; omega)
  rw [decode_eq, hw, if_neg (by omega), if_neg (by omega), if_neg (by omega), if_neg (by omega), if_neg (by omega),
    if_neg (by omega), if_pos (by omega), harg]

/-- Settles O21: a candidate has a payload, any other rate no code. -/
theorem encBaudBuildsOrRejects : Obligations.EncBaudBuildsOrRejects := by
  have hrejected (rate : BitVec 24) (s : State) (h : rate.toNat ∉ [9600, 19200, 38400, 57600, 115200]) :
      exec (.encBaud rate) s = .next { s with txLen := 0, result := .unsupportedBaud, lastOp := 0x12 } :=
    exec_encBaud_rejected (rateCode_eq_none (by rwa [rateOperand_toNat])) s
  have hbuilt (s : State) (e : BitVec 24 × Vector Byte 8)
      (h : (requestPayload (.encBaud e.1)).map frame = some e.2) :
      exec (.encBaud e.1) s = .next { s with tx := e.2, txLen := 8, result := .ok, lastOp := 0x12 } := by
    obtain ⟨p, hp, hframe⟩ := Option.map_eq_some_iff.1 h
    rw [exec_of_requestPayload hp, hframe]
    rfl
  refine ⟨decode_encBaud_word, hrejected, fun s e he => hbuilt s e (frame_baudRequests e he), fun s t h => ?_,
    fun s => ?_⟩
  · rw [show decode 0x00258012 = .encBaud 9600 from decode_encBaud_word 9600] at h
    have ht := Host.Outcome.next.inj (h.symm.trans (hbuilt s _ (frame_baudRequests _ List.mem_cons_self)))
    exact readReg_txBuf_of_tx (congrArg State.tx ht)
  · rw [show decode 0x00384012 = .encBaud 14400 from decode_encBaud_word 14400]
    exact hrejected 14400 s (by decide)

end Sys2Proof.Proofs

/-! # Proofs: the frame decoder and the validators (spec/42_decode.md)

`DEC_READ` is `readResponseResult` and then one of two effects (`exec_decRead_accepted`, `exec_decRead_rejected`), and
every byte the checks and the payload read lies in the received frame (`rxByte_of_isPrefix`). The statements are about
that result: below 9 bytes, with a wrong header byte, and with the frame split before its last two bytes. -/

namespace Sys2Proof.Proofs

open Sys2Proof Sys2Proof.Machine

/-! ## The received frame (R140) -/

section
variable {s : State} {f : List Byte}

theorem rxLen_of_received (h : s.received = f) : s.rxLen.val = f.length := by
  rw [← h, s.received_length]

theorem rx_getElem_of_received (h : s.received = f) {i : Nat} (hi : i < f.length) (h16 : i < 16) :
    s.rx[i] = f[i] := by
  subst h
  exact (s.rxByte_eq i h16).symm.trans (s.rxPrefix_getElem _ _ hi).symm

end

section
variable {s u : State} (h : s.received <+: u.received)
include h

/-- A byte of the received frame is the same byte of every longer frame that begins with it. -/
theorem rxByte_of_isPrefix {i : Nat} (hi : i < s.rxLen.val) : u.rxByte i = s.rxByte i := by
  have hs : i < s.received.length := by rwa [s.received_length]
  calc u.rxByte i = u.received[i]'(Nat.lt_of_lt_of_le hs h.length_le) := (u.rxPrefix_getElem _ _ _).symm
    _ = s.received[i] := (h.getElem hs).symm
    _ = s.rxByte i := s.rxPrefix_getElem _ _ hs

/-- The header lies in the first three bytes. -/
theorem readHeaderOk_of_isPrefix (hlen : 3 ≤ s.rxLen.val) : readHeaderOk u = readHeaderOk s := by
  simp only [readHeaderOk, rxByte_of_isPrefix h (show 0 < s.rxLen.val by omega),
    rxByte_of_isPrefix h (show 1 < s.rxLen.val by omega), rxByte_of_isPrefix h (show 2 < s.rxLen.val by omega)]

/-- The payload lies in the first seven bytes. -/
theorem payload_of_isPrefix (hlen : 7 ≤ s.rxLen.val) : payload u = payload s := by
  simp only [payload, rxByte_of_isPrefix h (show 3 < s.rxLen.val by omega),
    rxByte_of_isPrefix h (show 4 < s.rxLen.val by omega), rxByte_of_isPrefix h (show 5 < s.rxLen.val by omega),
    rxByte_of_isPrefix h (show 6 < s.rxLen.val by omega)]

end

/-! ## Reserved bits (R74) -/

/-- The three command words of the decoder have no operand: a 1 above the OP makes them illegal. -/
theorem illegalWord_of_arg_ne_zero {w : Word}
    (hop : w.toNat % 256 = 0x20 ∨ w.toNat % 256 = 0x21 ∨ w.toNat % 256 = 0x22) (harg : w.toNat / 256 ≠ 0) :
    illegalWord w = true := by
  rw [illegalWord_iff]
  omega

/-! ## The result of the checks (R141) -/

section
variable {s : State}

theorem readResponseResult_truncated (h : s.rxLen.val < 9) : readResponseResult s = .truncated := if_pos h

/-- A wrong header byte in a frame that is long enough. -/
theorem readResponseResult_malformed (hlen : readRespLen ≤ s.rxLen.val)
    (h : s.rx[0] ≠ 0x01 ∨ s.rx[1] ≠ 0x04 ∨ s.rx[2] ≠ 0x04) : readResponseResult s = .malformed := by
  have hhdr : readHeaderOk s = false := by
    rw [← Bool.not_eq_true, readHeaderOk_iff]
    rintro ⟨h0, h1, h2⟩
    exact h.elim (· h0) (·.elim (· h1) (· h2))
  rw [readResponseResult, if_neg (Nat.not_lt.2 hlen), if_pos hhdr]

/-- With the length and the header right, the last two bytes decide. -/
theorem readResponseResult_of_header {p : List Byte} {lo hi : Byte} (hlen : readRespLen ≤ s.rxLen.val)
    (h0 : s.rx[0] = 0x01) (h1 : s.rx[1] = 0x04) (h2 : s.rx[2] = 0x04) (h : s.received = p ++ [lo, hi]) :
    readResponseResult s = if crc16 p = expectedCrc lo hi then .ok else .checksumMismatch := by
  have hhdr : readHeaderOk s = true := (readHeaderOk_iff s).2 ⟨h0, h1, h2⟩
  have hiff := trailingCrcOk_iff s p lo hi h
  rw [readResponseResult, if_neg (Nat.not_lt.2 hlen), if_neg (by simp [hhdr])]
  by_cases hcrc : crc16 p = expectedCrc lo hi
  · rw [if_neg (by simp [hiff.2 hcrc]), if_pos hcrc]
  · rw [if_pos (Bool.eq_false_iff.2 (mt hiff.1 hcrc)), if_neg hcrc]

/-- The checks read the received frame alone. -/
theorem readResponseResult_congr {u : State} (h : u.received = s.received) :
    readResponseResult u = readResponseResult s := by
  have hlen : u.rxLen.val = s.rxLen.val := (rxLen_of_received h).trans s.received_length
  by_cases h9 : s.rxLen.val < 9
  · rw [readResponseResult_truncated h9, readResponseResult_truncated (hlen ▸ h9)]
  · have hhdr : readHeaderOk u = readHeaderOk s := readHeaderOk_of_isPrefix ⟨[], by rw [h, List.append_nil]⟩ (by omega)
    have hcrc : trailingCrcOk u = trailingCrcOk s := by
      rw [Bool.eq_iff_iff, trailingCrcOk_iff_crc16_received (by omega), trailingCrcOk_iff_crc16_received (by omega), h]
    simp only [readResponseResult, hlen, hhdr, hcrc]

/-! ## The commands as equations (R143, R147, R150) -/

theorem exec_decRead_accepted {v : Word} (h : readResponseResult s = .ok) (hv : payload s = v) :
    exec .decRead s = .next { s with raw := v, rawValid := true, result := .ok, lastOp := 0x20 } := by
  subst hv
  exact execDecRead_accepted h

theorem exec_decRead_rejected {code : ResultCode} (h : readResponseResult s = code) (hne : code ≠ .ok) :
    exec .decRead s = .next { s with rawValid := false, result := code, lastOp := 0x20 } := by
  subst h
  exact execDecRead_rejected hne

/-- `CHK_HDR` accepts every frame whose length and header `DEC_READ` accepts (R151). -/
theorem exec_chkHdr_of_readHeaderOk (hlen : readRespLen ≤ s.rxLen.val) (h : readHeaderOk s = true) :
    exec .chkHdr s = .next (s.report .ok opChkHdr) := by
  obtain ⟨h0, h1, -⟩ := (readHeaderOk_iff s).1 h
  rw [exec_chkHdr, if_neg (Nat.not_lt.2 (Nat.le_trans (by decide) hlen)),
    if_pos ⟨(s.rxByte_eq 0 (by decide)).trans h0, (s.rxByte_eq 1 (by decide)).trans h1⟩]

end

/-- An `OK` of `DEC_READ`: the checks passed, and what was written. -/
theorem accepted_of_exec_decRead {s t : State} (h : exec .decRead s = .next t) (hok : t.result = .ok) :
    readResponseResult s = .ok ∧
      t = { s with raw := payload s, rawValid := true, result := .ok, lastOp := 0x20 } := by
  have hres : readResponseResult s = .ok := (result_of_exec_decRead h).symm.trans hok
  exact ⟨hres, Host.Outcome.next.inj (h.symm.trans (exec_decRead_accepted hres rfl))⟩

/-- A received frame written out from its first byte, with the header and the CRC right, is accepted (R145). -/
theorem exec_decRead_of_received {s : State} {b3 b2 b1 b0 lo hi : Byte} {more : List Byte}
    (h : s.received = 0x01 :: 0x04 :: 0x04 :: b3 :: b2 :: b1 :: b0 :: (more ++ [lo, hi]))
    (hcrc : crc16 (0x01 :: 0x04 :: 0x04 :: b3 :: b2 :: b1 :: b0 :: more) = expectedCrc lo hi) :
    exec .decRead s =
      .next { s with raw := b3 ++ b2 ++ b1 ++ b0, rawValid := true, result := .ok, lastOp := 0x20 } := by
  have hlen : 9 ≤ s.rxLen.val := by
    rw [rxLen_of_received h]
    simp
  have hbyte (i : Nat) (hi : i < 7) : s.rx[i] = [0x01, 0x04, 0x04, b3, b2, b1, b0][i] := by
    rw [rx_getElem_of_received h (Nat.lt_of_lt_of_le hi (by simp)) (by omega)]
    exact List.getElem_append_left (as := [0x01, 0x04, 0x04, b3, b2, b1, b0]) hi
  have hres := readResponseResult_of_header (p := 0x01 :: 0x04 :: 0x04 :: b3 :: b2 :: b1 :: b0 :: more) hlen
    (hbyte 0 (by decide)) (hbyte 1 (by decide)) (hbyte 2 (by decide)) h
  refine exec_decRead_accepted (hres.trans (if_pos hcrc)) ?_
  rw [payload_eq, hbyte 3 (by decide), hbyte 4 (by decide), hbyte 5 (by decide), hbyte 6 (by decide)]
  rfl

/-! ## `DEC_READ` (R141 to R143) -/

/-- Two different bytes swapped are another halfword. -/
theorem expectedCrc_swap_ne {lo hi : Byte} (h : hi ≠ lo) : expectedCrc lo hi ≠ expectedCrc hi lo := fun he =>
  h (by simpa using congrArg halfHi he)

/-- The read response of 12345 (spec/95_test_vectors.md). -/
theorem crc16_readResponse : crc16 [0x01, 0x04, 0x04, 0x00, 0x00, 0x30, 0x39] = expectedCrc 0x2F 0x96 := by
  decide +kernel

/-- Settles O23: the result in each case of the checks, and the effect that goes with it. -/
theorem decReadValidatesInOrder : Obligations.DecReadValidatesInOrder := by
  refine ⟨by decide, fun s h => exec_decRead_rejected (readResponseResult_truncated h) (by decide),
    fun s hlen h => exec_decRead_rejected (readResponseResult_malformed hlen h) (by decide),
    fun s p lo hi hlen h0 h1 h2 h => ?_, fun s p lo hi hlen h0 h1 h2 h hcrc hne => ?_,
    fun w hop hres => exec_decode_illegal hop (illegalWord_of_arg_ne_zero (.inl hop) hres),
    fun s h => ?_, fun s h => ?_, fun s h => ?_⟩
  · have hres := readResponseResult_of_header hlen h0 h1 h2 h
    by_cases hcrc : crc16 p = hi ++ lo
    · rw [if_pos hcrc]
      exact exec_decRead_accepted (hres.trans (if_pos hcrc)) (payload_eq s)
    · rw [if_neg hcrc]
      exact exec_decRead_rejected (hres.trans (if_neg hcrc)) (by decide)
  · have hswap : crc16 p ≠ expectedCrc hi lo := hcrc ▸ expectedCrc_swap_ne hne
    exact exec_decRead_rejected ((readResponseResult_of_header hlen h0 h1 h2 h).trans (if_neg hswap)) (by decide)
  · refine ⟨_, exec_decRead_of_received (more := []) h crc16_readResponse, rfl, ?_⟩
    simp only [State.readReg, statusWord]
    rfl
  · rw [rawValue, h]
    rfl
  · rw [rawValue, h]
    rfl

/-- A byte appended below a number. -/
theorem append_byte_toNat {n : Nat} (x : BitVec n) (b : Byte) : (x ++ b).toNat = x.toNat * 256 + b.toNat := by
  rw [BitVec.toNat_append, ← Nat.shiftLeft_add_eq_or_of_lt b.isLt, Nat.shiftLeft_eq]

/-- The payload as a number, big-endian (R142). -/
theorem payloadWord_toNat (b3 b2 b1 b0 : Byte) : (payloadWord b3 b2 b1 b0).toNat =
    b3.toNat * 16777216 + b2.toNat * 65536 + b1.toNat * 256 + b0.toNat := by
  have h : (payloadWord b3 b2 b1 b0).toNat = ((b3.toNat * 256 + b2.toNat) * 256 + b1.toNat) * 256 + b0.toNat :=
    (append_byte_toNat (b3 ++ b2 ++ b1) b0).trans (by simp only [append_byte_toNat])
  rw [h]
  ring

/-- Settles O24: `RAW` is the four bytes appended, and its signed value is decided by its top bit. -/
theorem payloadIsBigEndianTwosComplement : Obligations.PayloadIsBigEndianTwosComplement := by
  intro s t h hok
  obtain ⟨-, rfl⟩ := accepted_of_exec_decRead h hok
  exact ⟨payload_eq s ▸ payloadWord_toNat _ _ _ _, BitVec.toInt_eq_msb_cond _⟩

/-- Settles O25: the divisor is positive, so the quotient times it is `RAW`. -/
theorem measurementIsExactQuotient : Obligations.MeasurementIsExactQuotient := by
  refine ⟨fun d s => div_mul_cancel₀ _ (Nat.cast_ne_zero.2 (Nat.ne_of_gt d.property)), rfl, fun s h => ?_,
    fun s h => ?_⟩
  · rw [measurement, rawValue, h]
    rfl
  · rw [measurement, rawValue, h]
    rfl

/-! ## Frames of other lengths and functions (R145, R146) -/

/-- A frame that is accepted stays so with 0x00 after it: its CRC is 0, and a zero byte keeps that. -/
theorem readResponseResult_append_zero {s u : State} (h : u.received = s.received ++ [0x00])
    (hok : readResponseResult s = .ok) : readResponseResult u = .ok := by
  obtain ⟨hlen, hhdr, hcrc⟩ := (readResponseResult_eq_ok_iff s).1 hok
  have h2 : 2 ≤ s.rxLen.val := Nat.le_trans (by decide) hlen
  have hlen' : s.rxLen.val ≤ u.rxLen.val := by simp [rxLen_of_received h, s.received_length]
  have hzero : crc16 u.received = 0 := by
    rw [h, crc16_append, (trailingCrcOk_iff_crc16_received h2).1 hcrc]
    decide
  exact (readResponseResult_eq_ok_iff u).2 ⟨Nat.le_trans hlen hlen',
    (readHeaderOk_of_isPrefix ⟨[0x00], h.symm⟩ (Nat.le_trans (by decide) hlen)).trans hhdr,
    (trailingCrcOk_iff_crc16_received (Nat.le_trans h2 hlen')).2 hzero⟩

/-- The high byte of a halfword, zero-extended. -/
theorem ushiftRight_eight_eq_setWidth_halfHi (c : Half) : c >>> 8 = (halfHi c).setWidth 16 := by
  apply BitVec.eq_of_toNat_eq
  have hc := c.isLt
  simp only [halfHi, BitVec.toNat_ushiftRight, BitVec.toNat_setWidth, BitVec.extractLsb'_toNat,
    Nat.shiftRight_eq_div_pow]
  omega

/-- Settles O26: the checks do not bound the length from above, and a CRC's low byte leaves its high byte. -/
theorem longFramesAreJudgedLiterally : Obligations.LongFramesAreJudgedLiterally := by
  refine ⟨fun s b3 b2 b1 b0 lo hi more h hcrc => exec_decRead_of_received h hcrc,
    fun s u v f hf hs hu hexec hok => ?_, fun p => ?_, fun s h => ?_⟩
  · obtain ⟨hres, rfl⟩ := accepted_of_exec_decRead hexec hok
    have hlen : 7 ≤ s.rxLen.val := by rw [rxLen_of_received hs, hf]; decide
    have happ : u.received = s.received ++ [0x00] := hu.trans (by rw [← hs]; rfl)
    exact exec_decRead_accepted (readResponseResult_append_zero happ hres)
      (payload_of_isPrefix ⟨[0x00], happ.symm⟩ hlen)
  · calc crc16 (p ++ [halfLo (crc16 p)]) = crcStep (crc16 p) (halfLo (crc16 p)) := crc16_append p _
      _ = crc16 p >>> 8 := crcStep_own_low_byte (crc16 p)
      _ = (halfHi (crc16 p)).setWidth 16 := ushiftRight_eight_eq_setWidth_halfHi (crc16 p)
  · exact exec_decRead_of_received (more := [0x2F]) h (by decide +kernel)

/-- Settles O27: without 0x04 in byte 1 check (a) or check (b) fails. -/
theorem otherFramesAreNeverAccepted : Obligations.OtherFramesAreNeverAccepted := by
  refine ⟨fun s h => ?_, fun s h => ?_⟩
  · by_cases hlen : s.rxLen.val < 9
    · rw [if_pos hlen]
      exact exec_decRead_rejected (readResponseResult_truncated hlen) (by decide)
    · rw [if_neg hlen]
      exact exec_decRead_rejected (readResponseResult_malformed (Nat.not_lt.1 hlen) (.inr (.inl h))) (by decide)
  · exact exec_decRead_rejected (readResponseResult_truncated (by simp [rxLen_of_received h])) (by decide)

/-! ## The validators (R147, R150) -/

/-- Settles O28: the comparison is `exec_chkEcho`. -/
theorem chkEchoJudgesLengthAlone : Obligations.ChkEchoJudgesLengthAlone :=
  ⟨by decide, exec_chkEcho,
    fun _ hop hres => exec_decode_illegal hop (illegalWord_of_arg_ne_zero (.inr (.inl hop)) hres)⟩

/-- `CHK_HDR` on the bytes of `RX` (R150). -/
theorem exec_chkHdr_bytes (s : State) : exec .chkHdr s = .next { s with
    result := if s.rxLen.val < 2 then .truncated else if s.rx[0] ≠ 0x01 ∨ s.rx[1] ≠ 0x04 then .malformed else .ok,
    lastOp := 0x22 } := by
  have hbyte0 : s.rxByte 0 = s.rx[0] := s.rxByte_eq 0 (by decide)
  have hbyte1 : s.rxByte 1 = s.rx[1] := s.rxByte_eq 1 (by decide)
  rcases execChkHdr_cases s with ⟨hlen, h⟩ | ⟨hlen, hbad, h⟩ | ⟨hlen, h0, h1, h⟩
  · rw [if_pos (show s.rxLen.val < 2 from hlen)]
    exact h
  · have hlong : ¬ s.rxLen.val < 2 := Nat.not_lt.2 hlen
    have hbytes : s.rx[0] ≠ 0x01 ∨ s.rx[1] ≠ 0x04 := by rwa [hbyte0, hbyte1] at hbad
    rw [if_neg hlong, if_pos hbytes]
    exact h
  · have hlong : ¬ s.rxLen.val < 2 := Nat.not_lt.2 hlen
    have hbytes : ¬ (s.rx[0] ≠ 0x01 ∨ s.rx[1] ≠ 0x04) := not_or.2
      ⟨not_not.2 (hbyte0.symm.trans h0), not_not.2 (hbyte1.symm.trans h1)⟩
    rw [if_neg hlong, if_neg hbytes]
    exact h

/-- Settles O29: five received bytes are enough for `CHK_HDR` and too few for `DEC_READ`. -/
theorem chkHdrChecksTwoBytes : Obligations.ChkHdrChecksTwoBytes := by
  refine ⟨by decide, exec_chkHdr_bytes,
    fun w hop hres => exec_decode_illegal hop (illegalWord_of_arg_ne_zero (.inr (.inr hop)) hres), fun s h => ⟨?_, ?_⟩⟩
  · have hlen := rxLen_of_received h
    have h0 := rx_getElem_of_received h (i := 0) (by decide) (by decide)
    have h1 := rx_getElem_of_received h (i := 1) (by decide) (by decide)
    rw [exec_chkHdr_bytes, if_neg (by simp [hlen]), if_neg (by simp [h0, h1])]
  · exact exec_decRead_rejected (readResponseResult_truncated (by simp [rxLen_of_received h])) (by decide)

/-! ## What the three results say of each other and of the CRC (R148, R151) -/

/-- A state with the eight bytes 01 04 00 00 00 00 00 00 received: long enough for `CHK_ECHO`, with the header that
`CHK_HDR` wants, and without a CRC. -/
def headerWithoutCrc : State :=
  (State.reset.setRx #v[0x01, 0x04, 0, 0, 0, 0, 0, 0, 0, 0, 0, 0, 0, 0, 0, 0]).setRxLen 8

theorem headerWithoutCrc_crc_wrong (p : List Byte) (lo hi : Byte) (h : headerWithoutCrc.received = p ++ [lo, hi]) :
    crc16 p ≠ expectedCrc lo hi := by
  rw [Ne, ← crc16_append_bytes_eq_zero_iff, ← h]
  decide +kernel

/-- Settles O30: the CRC is the last of `DEC_READ`'s checks, and no check of the validators. -/
theorem onlyDecReadVouchesForTheCrc : Obligations.OnlyDecReadVouchesForTheCrc := by
  refine ⟨fun s t h hok => ?_, ⟨headerWithoutCrc, _, rfl, rfl, headerWithoutCrc_crc_wrong⟩,
    ⟨headerWithoutCrc, _, rfl, rfl, headerWithoutCrc_crc_wrong⟩⟩
  obtain ⟨hlen, -, hcrc⟩ := (readResponseResult_eq_ok_iff s).1 (accepted_of_exec_decRead h hok).1
  have hsplit := s.received_split (Nat.le_trans (by decide) hlen)
  exact ⟨_, _, _, hsplit, (trailingCrcOk_iff s _ _ _ hsplit).1 hcrc⟩

/-- Settles O31: below 9 bytes or with a wrong header byte `DEC_READ` says so itself, otherwise `CHK_HDR` accepts. -/
theorem headerAndReadResultsAgree : Obligations.HeaderAndReadResultsAgree := by
  intro s
  obtain ⟨u, hu, -⟩ := exec_effect .chkHdr s
  have haccepts (hlen : readRespLen ≤ s.rxLen.val) (hhdr : readHeaderOk s = true) : u.result = .ok := by
    cases hu.symm.trans (exec_chkHdr_of_readHeaderOk hlen hhdr)
    rfl
  rcases execDecRead_cases s with ⟨-, h⟩ | ⟨-, -, h⟩ | ⟨hlen, hhdr, -, h⟩ | ⟨hlen, hhdr, -, h⟩
  · exact ⟨_, u, _, h, hu, exec_chkEcho s, by simp, by simp⟩
  · exact ⟨_, u, _, h, hu, exec_chkEcho s, by simp, by simp⟩
  · exact ⟨_, u, _, h, hu, exec_chkEcho s, by simp, by simp [haccepts hlen hhdr]⟩
  · exact ⟨_, u, _, h, hu, exec_chkEcho s, fun _ => haccepts hlen hhdr, by simp [haccepts hlen hhdr]⟩

/-! ## What is read and what is written (R140) -/

/-- A command that completes does the same with another buffer whose received frame is the same (R140). -/
theorem exec_setRx {i : Instr} {s t : State} {rx : Vector Byte 16} (hrx : (s.setRx rx).received = s.received)
    (h : exec i s = .next t) : exec i (s.setRx rx) = .next (t.setRx rx) := by
  have hpre : s.received <+: (s.setRx rx).received := ⟨[], by rw [hrx, List.append_nil]⟩
  cases i with
  | crcRx =>
    cases h
    exact exec_crcRx (congrArg crc16 hrx)
  | crcCheck lo hi =>
    rw [exec_crcCheck] at h ⊢
    cases h
    rfl
  | encBaud rate =>
    cases hcode : rateCode (rateOperand rate) with
    | none =>
      rw [exec_encBaud_rejected hcode] at h ⊢
      cases h
      rfl
    | some code =>
      have hpayload : requestPayload (.encBaud rate) = some (request fcWrite regBaud code) :=
        congrArg (Option.map _) hcode
      rw [exec_of_requestPayload hpayload] at h ⊢
      cases h
      rfl
  | decRead =>
    have hres := readResponseResult_congr hrx
    by_cases hok : readResponseResult s = .ok
    · obtain ⟨hlen, -, -⟩ := (readResponseResult_eq_ok_iff s).1 hok
      cases h.symm.trans (exec_decRead_accepted hok rfl)
      exact exec_decRead_accepted (hres.trans hok) (payload_of_isPrefix hpre (Nat.le_trans (by decide) hlen))
    · cases h.symm.trans (exec_decRead_rejected rfl hok)
      exact exec_decRead_rejected hres hok
  | chkEcho =>
    rw [exec_chkEcho] at h ⊢
    cases h
    rfl
  | chkHdr =>
    rw [exec_chkHdr] at h ⊢
    by_cases hlen : s.rxLen.val < hdrMinLen
    · rw [if_pos hlen] at h
      rw [State.setRx_rxLen, if_pos hlen]
      cases h
      rfl
    · have hlen2 : 2 ≤ s.rxLen.val := Nat.not_lt.1 hlen
      rw [rxByte_of_isPrefix hpre (show 0 < s.rxLen.val by omega),
        rxByte_of_isPrefix hpre (show 1 < s.rxLen.val by omega)]
      cases h
      rfl
  | _ =>
    cases h
    rfl

/-- Settles O32: bytes outside the received frame choose no branch and enter no result, and the three commands are not
among the writers of `TX`, `TXLEN` and `CRC`. -/
theorem bytesAboveRxLenAreUnread : Obligations.BytesAboveRxLenAreUnread := by
  refine ⟨fun i s t other hother h => exec_setRx hother h, fun i s t hi h => ?_⟩
  obtain ⟨wcrc, -, -, wtx, wlen, hrxLen, hrx, -⟩ := registersHaveTheirWriters i s t h
  have hcrc : ¬ (i = .crcInit ∨ (∃ d, i = .crcByte d) ∨ i = .crcRx) := by
    rcases hi with rfl | rfl | rfl <;> simp
  have henc : ¬ (i = .encRead ∨ i = .encZero ∨ ∃ rate, i = .encBaud rate) := by
    rcases hi with rfl | rfl | rfl <;> simp
  exact ⟨hrx, hrxLen, by_contra fun hne => henc (wtx hne).1, by_contra fun hne => henc (wlen hne),
    by_contra fun hne => hcrc (wcrc hne)⟩

end Sys2Proof.Proofs

/-! # Proofs: results and errors (spec/60_exceptions.md)

`commandResult` is the result of every command as a function of the command and the state it meets (`result_of_exec`);
the causes of each code are read off it, and what goes with a failure off `CommandEffect`. An obedient host is one whose
every event the block takes, and taking it leaves the rest of the events obedient (`step_of_hostObeys`). -/

namespace Sys2Proof.Proofs

open Sys2Proof Sys2Proof.Machine

/-! ## What a failing command writes (R175) -/

/-- Settles O36: the effects that end in another code than `OK` are a check, a rejected rate, a rejected frame and an
illegal word. -/
theorem failedCommandsArePrecise : Obligations.FailedCommandsArePrecise := by
  intro i s t h hne
  cases effect_of_exec h with
  | crc => exact absurd rfl hne
  | frameBuilt => exact absurd rfl hne
  | readAccepted => exact absurd rfl hne
  | check code hi =>
    have hread : i ≠ .decRead := by rintro rfl; simp at hi
    have hbaud : ¬ ∃ rate, i = .encBaud rate := by rintro ⟨rate, rfl⟩; simp at hi
    rw [if_neg hread, if_neg hbaud]
    rfl
  | rateRejected rate =>
    rw [if_neg (by simp), if_pos ⟨rate, rfl⟩]
    rfl
  | readRejected code =>
    rw [if_pos rfl, if_neg (by simp)]
    rfl
  | illegal w =>
    rw [if_neg (by simp), if_neg (by simp)]
    rfl

/-! ## The result of a command (R171) -/

/-- The result a command reports. -/
def commandResult (s : State) : Instr → ResultCode
  | .crcCheck lo hi => if s.crc = expectedCrc lo hi then .ok else .checksumMismatch
  | .encBaud rate => if rateCode (rateOperand rate) = none then .unsupportedBaud else .ok
  | .decRead => readResponseResult s
  | .chkEcho => if 8 ≤ s.rxLen.val then .ok else .truncated
  | .chkHdr => if s.rxLen.val < 2 then .truncated else if s.rx[0] ≠ 0x01 ∨ s.rx[1] ≠ 0x04 then .malformed else .ok
  | .badCommand _ => .badCommand
  | .crcInit | .crcByte _ | .crcRx | .encRead | .encZero => .ok

theorem result_of_exec {i : Instr} {s t : State} (h : exec i s = .next t) : t.result = commandResult s i := by
  cases i with
  | crcCheck lo hi =>
    cases h.symm.trans (exec_crcCheck lo hi s)
    rfl
  | encBaud rate =>
    cases hcode : rateCode (rateOperand rate) with
    | none =>
      cases h.symm.trans (exec_encBaud_rejected hcode s)
      exact (if_pos hcode).symm
    | some code =>
      have hpayload : requestPayload (.encBaud rate) = some (request fcWrite regBaud code) :=
        congrArg (Option.map _) hcode
      cases h.symm.trans (exec_of_requestPayload hpayload s)
      exact (if_neg (by simp [hcode])).symm
  | decRead => exact result_of_exec_decRead h
  | chkEcho =>
    cases h.symm.trans (exec_chkEcho s)
    rfl
  | chkHdr =>
    cases h.symm.trans (exec_chkHdr_bytes s)
    rfl
  | _ =>
    cases h
    rfl

/-- The candidate set is closed (R124). -/
theorem rateCode_eq_none_iff (rate : Word) :
    rateCode rate = none ↔ rate.toNat ∉ [9600, 19200, 38400, 57600, 115200] := by
  refine ⟨fun h => ?_, rateCode_eq_none⟩
  rcases rateCode_cases rate with ⟨hout, -⟩ | ⟨e, -, -, hcode⟩
  · exact hout
  · cases h.symm.trans hcode

/-! ## The causes of the codes of `DEC_READ`, in the order of its checks (R141, R174) -/

section
variable (s : State)

/-- The four outcomes of the checks, each with its cause. -/
theorem readResponseResult_cases :
    (readResponseResult s = .truncated ∧ s.rxLen.val < 9) ∨
    (readResponseResult s = .malformed ∧ 9 ≤ s.rxLen.val ∧ (s.rx[0] ≠ 0x01 ∨ s.rx[1] ≠ 0x04 ∨ s.rx[2] ≠ 0x04)) ∨
    (readResponseResult s = .checksumMismatch ∧ 9 ≤ s.rxLen.val ∧ s.rx[0] = 0x01 ∧ s.rx[1] = 0x04 ∧ s.rx[2] = 0x04 ∧
      ∃ (p : List Byte) (lo hi : Byte), s.received = p ++ [lo, hi] ∧ crc16 p ≠ expectedCrc lo hi) ∨
    readResponseResult s = .ok := by
  by_cases hlen : s.rxLen.val < 9
  · exact .inl ⟨readResponseResult_truncated hlen, hlen⟩
  rw [Nat.not_lt] at hlen
  by_cases hbytes : s.rx[0] ≠ 0x01 ∨ s.rx[1] ≠ 0x04 ∨ s.rx[2] ≠ 0x04
  · exact .inr (.inl ⟨readResponseResult_malformed hlen hbytes, hlen, hbytes⟩)
  push Not at hbytes
  obtain ⟨h0, h1, h2⟩ := hbytes
  have hsplit := s.received_split (Nat.le_trans (by decide) hlen)
  have hres := readResponseResult_of_header hlen h0 h1 h2 hsplit
  split_ifs at hres with hcrc
  · exact .inr (.inr (.inr hres))
  · exact .inr (.inr (.inl ⟨hres, hlen, h0, h1, h2, _, _, _, hsplit, hcrc⟩))

theorem readResponseResult_eq_truncated_iff : readResponseResult s = .truncated ↔ s.rxLen.val < 9 := by
  refine ⟨fun h => ?_, readResponseResult_truncated⟩
  rcases readResponseResult_cases s with ⟨hr, hcause⟩ | ⟨hr, -⟩ | ⟨hr, -⟩ | hr <;> cases h.symm.trans hr
  exact hcause

theorem readResponseResult_eq_malformed_iff : readResponseResult s = .malformed ↔
    9 ≤ s.rxLen.val ∧ (s.rx[0] ≠ 0x01 ∨ s.rx[1] ≠ 0x04 ∨ s.rx[2] ≠ 0x04) := by
  refine ⟨fun h => ?_, fun ⟨hlen, hbytes⟩ => readResponseResult_malformed hlen hbytes⟩
  rcases readResponseResult_cases s with ⟨hr, -⟩ | ⟨hr, hcause⟩ | ⟨hr, -⟩ | hr <;> cases h.symm.trans hr
  exact hcause

theorem readResponseResult_eq_checksumMismatch_iff : readResponseResult s = .checksumMismatch ↔
    9 ≤ s.rxLen.val ∧ s.rx[0] = 0x01 ∧ s.rx[1] = 0x04 ∧ s.rx[2] = 0x04 ∧
      ∃ (p : List Byte) (lo hi : Byte), s.received = p ++ [lo, hi] ∧ crc16 p ≠ expectedCrc lo hi := by
  refine ⟨fun h => ?_, fun ⟨hlen, h0, h1, h2, p, lo, hi, hsplit, hcrc⟩ =>
    (readResponseResult_of_header hlen h0 h1 h2 hsplit).trans (if_neg hcrc)⟩
  rcases readResponseResult_cases s with ⟨hr, -⟩ | ⟨hr, -⟩ | ⟨hr, hcause⟩ | hr <;> cases h.symm.trans hr
  exact hcause

end

/-! ## The causes of each code over all commands (R171) -/

section
variable (s : State) (i : Instr)

theorem commandResult_eq_truncated_iff : commandResult s i = .truncated ↔
    (i = .decRead ∧ s.rxLen.val < 9) ∨ (i = .chkEcho ∧ s.rxLen.val < 8) ∨ (i = .chkHdr ∧ s.rxLen.val < 2) := by
  cases i with
  | decRead => simp [commandResult, readResponseResult_eq_truncated_iff]
  | chkEcho => simp [commandResult]
  | _ => simp [commandResult, ite_eq_iff]

theorem commandResult_eq_malformed_iff : commandResult s i = .malformed ↔
    (i = .decRead ∧ 9 ≤ s.rxLen.val ∧ (s.rx[0] ≠ 0x01 ∨ s.rx[1] ≠ 0x04 ∨ s.rx[2] ≠ 0x04)) ∨
    (i = .chkHdr ∧ 2 ≤ s.rxLen.val ∧ (s.rx[0] ≠ 0x01 ∨ s.rx[1] ≠ 0x04)) := by
  cases i with
  | decRead => simp [commandResult, readResponseResult_eq_malformed_iff]
  | chkHdr => simp [commandResult, ite_eq_iff, imp_iff_not_or, Nat.lt_iff_add_one_le]
  | _ => simp [commandResult, ite_eq_iff]

theorem commandResult_eq_checksumMismatch_iff : commandResult s i = .checksumMismatch ↔
    (i = .decRead ∧ 9 ≤ s.rxLen.val ∧ s.rx[0] = 0x01 ∧ s.rx[1] = 0x04 ∧ s.rx[2] = 0x04 ∧
      ∃ (p : List Byte) (lo hi : Byte), s.received = p ++ [lo, hi] ∧ crc16 p ≠ expectedCrc lo hi) ∨
    (∃ lo hi, i = .crcCheck lo hi ∧ s.crc ≠ expectedCrc lo hi) := by
  cases i with
  | decRead => simp [commandResult, readResponseResult_eq_checksumMismatch_iff]
  | crcCheck lo hi => simp [commandResult]
  | _ => simp [commandResult, ite_eq_iff]

theorem commandResult_eq_unsupportedBaud_iff : commandResult s i = .unsupportedBaud ↔
    ∃ rate, i = .encBaud rate ∧ rate.toNat ∉ [9600, 19200, 38400, 57600, 115200] := by
  cases i with
  | encBaud rate =>
    have hcause : commandResult s (.encBaud rate) = .unsupportedBaud ↔ rateCode (rateOperand rate) = none := by
      simp [commandResult]
    rw [hcause, rateCode_eq_none_iff, rateOperand_toNat]
    simp
  | decRead =>
    rcases readResponseResult_cases s with ⟨hr, -⟩ | ⟨hr, -⟩ | ⟨hr, -⟩ | hr <;> simp [commandResult, hr]
  | _ => simp [commandResult, ite_eq_iff]

theorem commandResult_eq_badCommand_iff : commandResult s i = .badCommand ↔ ∃ w, i = .badCommand w := by
  cases i with
  | decRead =>
    rcases readResponseResult_cases s with ⟨hr, -⟩ | ⟨hr, -⟩ | ⟨hr, -⟩ | hr <;> simp [commandResult, hr]
  | _ => simp [commandResult, ite_eq_iff]

end

/-- Settles O35: the causes of a code are those of `commandResult`, and what a failure records is O36. -/
theorem resultCodesHaveTheirCauses : Obligations.ResultCodesHaveTheirCauses := by
  refine ⟨rfl, rfl, fun i s t h => ?_⟩
  have he := effect_of_exec h
  have hres (code : ResultCode) : t.result = code ↔ commandResult s i = code := by rw [result_of_exec h]
  have hbaud := (hres .unsupportedBaud).trans (commandResult_eq_unsupportedBaud_iff s i)
  refine ⟨he.lastOp_eq, he.result_ne_none, (hres _).trans (commandResult_eq_truncated_iff s i),
    (hres _).trans (commandResult_eq_malformed_iff s i), (hres _).trans (commandResult_eq_checksumMismatch_iff s i),
    hbaud, (hres _).trans (commandResult_eq_badCommand_iff s i), fun hi hne => ?_, fun hcode => ?_⟩
  · exact (congrArg State.rawValid (failedCommandsArePrecise i s t h hne)).trans (if_pos hi)
  · obtain ⟨rate, hi, -⟩ := hbaud.1 hcode
    have hne : t.result ≠ .ok := by simp [hcode]
    exact (congrArg State.txLen (failedCommandsArePrecise i s t h hne)).trans (if_pos ⟨rate, hi⟩)

/-! ## An obedient host (R170, R190, R194) -/

/-- Every write of a register completes, and leaves the reset input and the events still to arrive as they are. -/
theorem writeReg_completes (r : Reg) (v : Word) (s : State) :
    ∃ t, writeReg r v s = .next t ∧ t.inReset = s.inReset ∧ t.pending = s.pending := by
  cases r with
  | cmd =>
    obtain ⟨t, ht, he⟩ := exec_effect (decode v) s
    obtain ⟨-, -, hreset, hpending, -⟩ := he.host_side_kept
    exact ⟨t, ht, hreset, hpending⟩
  | rxLen =>
    refine ⟨_, rfl, ?_⟩
    rcases s.writeRxLen_cases v with ⟨n, -, h⟩ | ⟨-, h⟩ <;> rw [h] <;> exact ⟨rfl, rfl⟩
  | _ => exact ⟨_, rfl, rfl, rfl⟩

/-- A write inside the window out of reset completes, and leaves the events after it. -/
theorem step_write_completes {s : State} {offset width : Nat} {v : Word} {rest : List HostEvent}
    (hr : s.inReset = false) (ho : offset < windowSize) (hp : s.pending = .write offset width v :: rest) :
    ∃ t, step s = .next t ∧ t.inReset = false ∧ t.pending = rest := by
  cases ha : accessedReg offset width with
  | none => exact ⟨_, step_write_unsupported hr ho ((accessedReg_eq_none_iff ho).1 ha) hp, hr, rfl⟩
  | some r =>
    obtain ⟨rfl, rfl⟩ := accessedReg_eq_some ha
    obtain ⟨t, ht, hreset, hpending⟩ := writeReg_completes r v { s with pending := rest }
    exact ⟨t, (step_write_reg r hr hp).trans ht, hreset.trans hr, hpending⟩

/-- The reset input is where it was driven, and the events still to arrive stay (R190). -/
theorem driveReset_host_side (a : Bool) (s : State) :
    (s.driveReset a).inReset = a ∧ (s.driveReset a).pending = s.pending := by
  rcases s.driveReset_cases a with ⟨rfl, h⟩ | ⟨rfl, -, h⟩ | ⟨rfl, hr, h⟩ <;> rw [h]
  · exact ⟨rfl, rfl⟩
  · exact ⟨rfl, rfl⟩
  · exact ⟨hr, rfl⟩

/-- Under an obedient host a step goes on, and the host stays obedient. -/
theorem step_of_hostObeys {s : State} (h : hostObeys s.inReset s.pending = true) :
    ∃ t, step s = .next t ∧ hostObeys t.inReset t.pending = true := by
  cases hp : s.pending with
  | nil => exact ⟨s, by simp only [step, nextEvent, hp], h⟩
  | cons e rest =>
    rw [hp] at h
    cases e with
    | read offset width =>
      simp only [hostObeys, Bool.and_eq_true, Bool.not_eq_true', decide_eq_true_eq] at h
      obtain ⟨⟨hr, ho⟩, hrest⟩ := h
      exact ⟨_, step_read_inside hr ho hp, hrest⟩
    | write offset width v =>
      simp only [hostObeys, Bool.and_eq_true, Bool.not_eq_true', decide_eq_true_eq] at h
      obtain ⟨⟨hr, ho⟩, hrest⟩ := h
      obtain ⟨t, ht, hreset, hpending⟩ := step_write_completes hr ho hp
      exact ⟨t, ht, by rwa [hreset, hpending, ← hr]⟩
    | resetLine a =>
      obtain ⟨hreset, hpending⟩ := driveReset_host_side a (s.setPending rest)
      exact ⟨_, step_of_resetLine hp, by rw [hreset, hpending]; exact h⟩

/-- Settles O60, by induction on the number of steps. -/
theorem obedientHostIsNeverStopped : Obligations.ObedientHostIsNeverStopped := by
  intro n
  induction n with
  | zero => exact fun s _ => ⟨s, rfl⟩
  | succ n ih =>
    intro s h
    obtain ⟨u, hu, hobeys⟩ := step_of_hostObeys h
    rw [run_of_step n hu]
    exact ih u hobeys

end Sys2Proof.Proofs

/-! # Proofs: reset (spec/70_reset_and_hazards.md)

Two effects of the reset input and one refusal: assertion sets the input alone, an access meets it before the register
it names, and the release of an asserted input is the end of reset. -/

namespace Sys2Proof.Proofs

open Sys2Proof Sys2Proof.Machine

/-! ## The reset input, driven (R190) -/

/-- Assertion keeps every register, whether the input was asserted before or not (log entry 6). -/
theorem driveReset_true (s : State) : s.driveReset true = s.setInReset true := if_pos rfl

/-- The release of an asserted input ends reset. -/
theorem driveReset_false_of_inReset {s : State} (hr : s.inReset = true) : s.driveReset false = s.endReset :=
  (if_neg Bool.false_ne_true).trans (if_pos hr)

/-- The end of reset, as the power-up state with the values that are not the reset's own: the draw of the buffers, the
events still to arrive and the last reply. -/
theorem endReset_eq_reset_with (s : State) :
    s.endReset = { State.reset with
      tx := Config.txBufReset s.draws, rx := Config.rxBufReset s.draws,
      pending := s.pending, reply := s.reply, draws := s.draws + 1 } := rfl

/-! ## Accesses during reset (R190) -/

/-- A read inside the window is refused whatever its width and the register it names. -/
theorem busRead_refused_of_inReset {s : State} {offset : Nat} (width : Nat) (hr : s.inReset = true)
    (ho : offset < windowSize) : busRead offset width s = .refused .accessDuringReset := by
  rw [busRead, if_neg (Nat.not_le.2 ho), if_pos hr]

/-- A write inside the window is refused whatever its width, its value and the register it names. -/
theorem busWrite_refused_of_inReset {s : State} {offset : Nat} (width : Nat) (v : Word) (hr : s.inReset = true)
    (ho : offset < windowSize) : busWrite offset width v s = .refused .accessDuringReset := by
  rw [busWrite, if_neg (Nat.not_le.2 ho), if_pos hr]

/-- Settles O55: assertion sets the input, an access meets the asserted input first, and release is the end of reset. -/
theorem endOfResetGivesResetValues : Obligations.EndOfResetGivesResetValues := by
  refine ⟨fun s rest hp => ?asserted, fun s offset width v rest hr ho haccess => ?accessed,
    fun s rest hr hp => ?released⟩
  case asserted => rw [step_of_resetLine hp, driveReset_true]; rfl
  case accessed =>
    rcases haccess with hp | hp
    · exact (step_of_read hp).trans (busRead_refused_of_inReset width hr ho)
    · exact (step_of_write hp).trans (busWrite_refused_of_inReset width v hr ho)
  case released =>
    have hasserted : (s.setPending rest).inReset = true := hr
    rw [step_of_resetLine hp, driveReset_false_of_inReset hasserted, endReset_eq_reset_with]
    rfl

end Sys2Proof.Proofs

/-! # Proofs: round trips of command words, and the CRC of a stream (spec/30_encoding.md, spec/40_crc.md)

The layouts with operands put their fields at powers of 256 (`encode_crcByte_word` and its like): the two round trips of
the encoding read the fields back from that number. A stream is one `CRC_INIT` and an induction over its bytes. -/

namespace Sys2Proof.Proofs

open Sys2Proof Sys2Proof.Machine

/-! ## The layouts with operands, as numbers (R71, R72) -/

theorem encode_crcByte_word (d : Byte) : encode (.crcByte d) = BitVec.ofNat 32 (d.toNat * 256 + 0x02) := by
  rw [encode_crcByte, ← Nat.shiftLeft_add_eq_or_of_lt (by decide), Nat.shiftLeft_eq]

theorem encode_crcCheck_word (lo hi : Byte) :
    encode (.crcCheck lo hi) = BitVec.ofNat 32 (hi.toNat * 65536 + lo.toNat * 256 + 0x03) := by
  have hlow : lo.toNat <<< 8 ||| 0x03 = lo.toNat * 256 + 0x03 := by
    rw [← Nat.shiftLeft_add_eq_or_of_lt (by decide), Nat.shiftLeft_eq]
  have hlt : lo.toNat * 256 + 0x03 < 2 ^ 16 := by omega
  rw [encode_crcCheck, Nat.or_assoc, hlow, ← Nat.shiftLeft_add_eq_or_of_lt hlt, Nat.shiftLeft_eq, ← Nat.add_assoc]

theorem encode_encBaud_word (rate : BitVec 24) :
    encode (.encBaud rate) = BitVec.ofNat 32 (rate.toNat * 256 + 0x12) := by
  rw [encode_encBaud, ← Nat.shiftLeft_add_eq_or_of_lt (by decide), Nat.shiftLeft_eq]

/-! ## The two round trips (R70, R73) -/

/-- Settles O2: the operands are read back from the word's number, an illegal word matches no row, and any other command
is one word. -/
theorem decodeOfEncode : Obligations.DecodeOfEncode := by
  intro i hw
  cases i with
  | crcByte d => rw [encode_crcByte_word, decode_crcByte_word]
  | crcCheck lo hi => rw [encode_crcCheck_word, decode_crcCheck_word]
  | encBaud rate => rw [encode_encBaud_word, decode_encBaud_word]
  | badCommand w => exact (decode_eq_badCommand_iff_illegal w).2 hw
  | _ => decide

/-- A word is the encoding of what it decodes to: its bits outside the operand fields are the OP and zeros. -/
theorem encode_decode (w : Word) : encode (decode w) = w := by
  apply BitVec.eq_of_toNat_eq
  rcases decode_cases w with ⟨h, hd⟩ | ⟨hop, hres, hd⟩ | ⟨hop, hres, hd⟩ | ⟨h, hd⟩ | ⟨h, hd⟩ | ⟨h, hd⟩ | ⟨hop, hd⟩ |
    ⟨h, hd⟩ | ⟨h, hd⟩ | ⟨h, hd⟩ | ⟨-, hd⟩
  case inr.inl => rw [hd, encode_crcByte_word, BitVec.toNat_ofNat, wordLo_toNat]; omega
  case inr.inr.inl => rw [hd, encode_crcCheck_word, BitVec.toNat_ofNat, wordHi_toNat, wordLo_toNat]; omega
  case inr.inr.inr.inr.inr.inr.inl => rw [hd, encode_encBaud_word, BitVec.toNat_ofNat, wordArg_toNat]; omega
  case inr.inr.inr.inr.inr.inr.inr.inr.inr.inr => rw [hd, encode]
  all_goals rw [hd, h]; rfl

/-- Settles O3. -/
theorem encodeOfDecode : Obligations.EncodeOfDecode := fun w => ⟨encode_decode w, decode_wellFormed w⟩

/-- Settles O1: each word is the encoding of its command, and the illegal words are illegal. -/
theorem specWordsDecode : Obligations.SpecWordsDecode :=
  ⟨decodeOfEncode .crcInit rfl, decodeOfEncode (.crcByte 0x01) rfl, decodeOfEncode (.crcCheck 0xC0 0x05) rfl,
    decodeOfEncode .crcRx rfl, decodeOfEncode .encRead rfl, decodeOfEncode .encZero rfl,
    decodeOfEncode (.encBaud 9600) rfl, decodeOfEncode (.encBaud 0xFFFFFF) rfl, decodeOfEncode .decRead rfl,
    decodeOfEncode .chkEcho rfl, decodeOfEncode .chkHdr rfl, decodeOfEncode (.badCommand 0x00000000) rfl,
    decodeOfEncode (.badCommand 0x00000101) rfl, decodeOfEncode (.badCommand 0x00010002) rfl,
    decodeOfEncode (.badCommand 0x01000003) rfl⟩

/-! ## A stream of bytes (R103 to R105, R107) -/

/-- The `CRC_BYTE` writes of a list, taken in order, carry the accumulator through it from whatever it was. -/
theorem run_crcByteWrites (bytes : List Byte) : ∀ s : State, s.inReset = false →
    s.pending = bytes.map (fun b => .write 0x00 4 (BitVec.ofNat 32 (b.toNat * 256 + 0x02))) →
    ∃ t, core.run bytes.length s = .next t ∧ t.pending = [] ∧ t.crc = bytes.foldl crcStep s.crc := by
  induction bytes with
  | nil => exact fun s _ hp => ⟨s, rfl, hp, rfl⟩
  | cons b rest ih =>
    intro s hr hp
    have hstep := stepRunsDecodedCommand s _ _ _ hr hp (decode_crcByte_word b)
    rw [List.length_cons, run_of_step _ hstep]
    exact ih _ hr rfl

/-- Settles O16: the stream goes on from the seed that `CRC_INIT` sets, as the CRC of the received frame does. -/
theorem byteStreamEqualsCrcRx : Obligations.ByteStreamEqualsCrcRx := by
  intro bytes s hr hp
  have hinit := stepRunsDecodedCommand s _ _ _ hr hp crcInitSeedsAccumulator.1
  rw [run_of_step _ hinit]
  obtain ⟨t, hrun, hend, hcrc⟩ := run_crcByteWrites bytes
    { s with crc := crcSeed, result := .ok, lastOp := opCrcInit, pending := _ } hr rfl
  refine ⟨t, hrun, hend, hcrc, fun u v hrx hv => ?_⟩
  rw [exec_crcRx (congrArg crc16 hrx)] at hv
  cases hv
  exact hcrc.symm

end Sys2Proof.Proofs
